-- ==== Sys2Proof/Word.lean ====
section
/-! DEFINITION. The widths of the block's values (00_scope.md R5, R8): all unsigned. -/

namespace Sys2Proof

/-- A byte of a buffer, and the width of `length` (W_LEN, R5). -/
abbrev Byte := BitVec 8

/-- The width of `checksum` (W_CSUM, R5). -/
abbrev U16 := BitVec 16

/-- The width of origin, destination and sequence_id (W_ID) and of the accumulator (W_ACC), R5. -/
abbrev U32 := BitVec 32

end Sys2Proof
end

