-- ==== Sys2Proof/Machine/HostAction.lean ====
section
/-! DEFINITION. What a host can do to an instance between commands (60_exceptions.md R149, decision D26): one register or
buffer access, or the issue of one command. What a host cannot do has no term here: it cannot write STATUS (10_state.md
R29), and it can neither read nor write SEQ (R21) or ACC (R32). -/

namespace Sys2Proof.Machine

/-- One host write (10_state.md R24, R26, R27; 30_encoding.md R86, SET and PATCH). -/
inductive HostWrite where
  | origin (v : U32)
  | dest (v : U32)
  | seqid (v : U32)
  | csum (v : U16)
  | len (v : Byte)
  | frmLen (n : Nat)
  | pay (i : Nat) (b : Byte)
  | frm (i : Nat) (b : Byte)
deriving DecidableEq, Repr

/-- One host read (10_state.md R24, R26, R27, R29). -/
inductive HostRead where
  | origin
  | dest
  | seqid
  | csum
  | len
  | frmLen
  | status
  | pay (i : Nat)
  | frm (i : Nat)
deriving DecidableEq, Repr

/-- One step of a host (60_exceptions.md R149). -/
inductive HostAction where
  | write (w : HostWrite)
  | read (r : HostRead)
  /-- Present a value on OP (10_state.md R30); the instance performs that command. -/
  | issue (op : BitVec 2)
deriving DecidableEq, Repr

/-- A host's action and the number of the instance it drives, 0 to N_INST - 1 (60_exceptions.md R152). -/
structure Event where
  inst   : Nat
  action : HostAction
deriving DecidableEq, Repr

end Sys2Proof.Machine
end

