-- ==== Sys2Proof/Machine/Layout.lean ====
section
/-! DEFINITION. The frame's layout (00_scope.md R6, 30_encoding.md R73), the buffers' sizes (10_state.md R25, R26) and
the byte order (20_memory.md R50 to R52). -/

namespace Sys2Proof.Machine

/-- LEN_MAX, the largest payload and the size of PAY in bytes (00_scope.md R5, 10_state.md R25). -/
def payCap : Nat := 255

/-- The default and the least FRM_CAP: FRAME_MAX = HDR_LEN + LEN_MAX (00_scope.md R6, R7). -/
def frmCapDefault : Nat := 272

/-- OFF_SYNC, where SYNC0 stands; SYNC1 is one byte on (R6, R73). -/
def offSync : Nat := 0

/-- OFF_ORIGIN (R6, R73). -/
def offOrigin : Nat := 2

/-- OFF_DEST (R6, R73). -/
def offDest : Nat := 6

/-- OFF_SEQ (R6, R73). -/
def offSeq : Nat := 10

/-- OFF_CSUM (R6, R73). -/
def offCsum : Nat := 14

/-- LEN_OFF: 16 and not the prose's 12, by 90_conflicts.md C1 (log 9). -/
def offLen : Nat := 16

/-- HDR_LEN, also the offset of the first payload byte: 17 and not the prose's 13, by 90_conflicts.md C1 (log 9). -/
def hdrLen : Nat := 17

/-- ORIGIN_LOCAL, the origin that NEW writes (00_scope.md R5, 43_new.md R130). -/
def originLocal : U32 := 0

/-- The `n` bytes of `v`, least significant first: byte k is bits 8k+7 to 8k (20_memory.md R50, R51). -/
def leBytes : Nat → Nat → List Byte
  | 0, _ => []
  | n + 1, v => BitVec.ofNat 8 v :: leBytes n (v / 256)

/-- The value of bytes in little-endian order (20_memory.md R52). -/
def leValue : List Byte → Nat
  | [] => 0
  | b :: bs => b.toNat + 256 * leValue bs

end Sys2Proof.Machine
end

