-- ==== Sys2Proof/Syntax.lean ====
section
/-! DEFINITION. The commands of the block: one constructor per row of opcode_table.json (30_encoding.md R71). A command
has no operand fields (R70): every operand is in the named state (R72). -/

namespace Sys2Proof

/-- The four commands (30_encoding.md R71). -/
inductive Instr where
  /-- CSUM, op 00: the checksum of the packet in PKT and PAY (40_checksum.md R101). -/
  | csum
  /-- ENCODE, op 01: marshal the packet into FRM (41_encode.md R110). -/
  | encode
  /-- DECODE, op 10: un-marshal the frame in FRM (42_decode.md R120). -/
  | decode
  /-- NEW, op 11: make the held destination and payload an outbound packet (43_new.md R130). -/
  | new
deriving DecidableEq, Repr

end Sys2Proof
end

