-- ==== Sys2Proof/WellFormed.lean ====
section
/-! DEFINITION. Which commands and host actions are well formed. Every command is (30_encoding.md R70, R81: no operands, no
reserved code); a host action is when the byte, the length or the instance it names exists. -/

namespace Sys2Proof

/-- All four commands are defined and have nothing that could be out of range (30_encoding.md R70, R81). -/
def Instr.wellFormed : Instr → Bool
  | .csum => true
  | .encode => true
  | .decode => true
  | .new => true

namespace Machine

/-- PAY has bytes 0 to 254, FRM 0 to FRM_CAP - 1, and FRMLEN holds 0 to FRM_CAP (10_state.md R25 to R27). -/
def HostWrite.wellFormed (frmCap : Nat) : HostWrite → Bool
  | .frmLen n => decide (n ≤ frmCap)
  | .pay i _ => decide (i < payCap)
  | .frm i _ => decide (i < frmCap)
  | .origin _ => true
  | .dest _ => true
  | .seqid _ => true
  | .csum _ => true
  | .len _ => true

/-- The byte read exists (10_state.md R25, R26). -/
def HostRead.wellFormed (frmCap : Nat) : HostRead → Bool
  | .pay i => decide (i < payCap)
  | .frm i => decide (i < frmCap)
  | .origin => true
  | .dest => true
  | .seqid => true
  | .csum => true
  | .len => true
  | .frmLen => true
  | .status => true

/-- Every op value is a command (30_encoding.md R81). -/
def HostAction.wellFormed (frmCap : Nat) : HostAction → Bool
  | .write w => w.wellFormed frmCap
  | .read r => r.wellFormed frmCap
  | .issue _ => true

/-- The instance exists (60_exceptions.md R152) and the action is well formed. -/
def Event.wellFormed (nInst frmCap : Nat) (e : Event) : Bool :=
  decide (e.inst < nInst) && e.action.wellFormed frmCap

end Machine

end Sys2Proof
end

