-- ==== Sys2Proof/Decode.lean ====
section
/-! DEFINITION. The command code (30_encoding.md R70, R71): decoder and encoder of the 2-bit OP value, and the same code
held in a byte (log 12). -/

namespace Sys2Proof

/-- Why a byte stream holds no command. -/
inductive DecodeReject where
  /-- There is no byte. -/
  | noByte
  /-- The byte is not a 2-bit value: a bit above bits 1:0 is set. -/
  | notACommand (b : Byte)
deriving DecidableEq, Repr

/-- The opcode map (30_encoding.md R71); all four codes are commands (R81). -/
def decodeOp (op : BitVec 2) : Instr :=
  if op = 0b00#2 then .csum
  else if op = 0b01#2 then .encode
  else if op = 0b10#2 then .decode
  else .new

/-- The first command of a stream that holds one OP value a byte, in bits 1:0, and what follows it. -/
def decode : List Byte → Except DecodeReject (Instr × List Byte)
  | [] => .error .noByte
  | b :: rest =>
    if b.toNat < 4 then .ok (decodeOp (b.setWidth 2), rest) else .error (.notACommand b)

/-- The OP value of a command (30_encoding.md R71). -/
def encode : Instr → BitVec 2
  | .csum => 0b00#2
  | .encode => 0b01#2
  | .decode => 0b10#2
  | .new => 0b11#2

/-- The byte that holds a command's OP value in bits 1:0. -/
def encodeBytes (i : Instr) : List Byte := [(encode i).setWidth 8]

/-- What `decode` reads from the `nbits` bits of `w`, bit 0 the least significant bit of the first byte. -/
def decodeTableWord (nbits w : Nat) : Option Instr :=
  match decode (Machine.leBytes ((nbits + 7) / 8) w) with
  | .ok (i, _) => some i
  | .error _ => none

end Sys2Proof
end

