-- ==== Sys2Proof/Config.lean ====
section
/-! DEFINITION. The build parameters that the spec leaves OPEN (00_scope.md R7, decision D1): the two bytes of the sync
marker. They have no value in the model, so whatever is proved holds for every marker. The parameters that have a
default, N_INST and FRM_CAP, are arguments of the state after reset (Machine/State.lean). -/

namespace Sys2Proof

/-- SYNC0, the first byte of the sync marker on the wire, frame offset 0 (R7). No value is given (log 3). -/
opaque Config.sync0 : Byte

/-- SYNC1, the second byte of the sync marker on the wire, frame offset 1 (R7). No value is given (log 3). -/
opaque Config.sync1 : Byte

end Sys2Proof
end

