-- ==== Sys2Proof/Machine/State.lean ====
section
/-! DEFINITION. The machine's state as plain data (10_state.md, whole) and its value after reset (R34, R170), with the
reasons a step can stop. -/

namespace Sys2Proof.Machine

/-- The two buffers of an instance (10_state.md R28). -/
inductive Buffer where
  | pay
  | frm
deriving DecidableEq, Repr

/-- Why a step faults. The block itself has no fault (60_exceptions.md R144): each of these is a host naming something
that does not exist. -/
inductive Fault where
  /-- Raised by a host access to PAY[i] with i at least 255 or FRM[i] with i at least FRM_CAP: no such byte exists
  (10_state.md R25, R26). Safe: the model stops and claims nothing. -/
  | noSuchByte (buf : Buffer) (i : Nat)
  /-- Raised by a step whose event names an instance at or above N_INST (60_exceptions.md R152). Safe: the model stops. -/
  | noSuchInstance (k : Nat)
deriving DecidableEq, Repr

/-- Why a step is refused. -/
inductive Refusal where
  /-- Raised by an arm of `exec` whose instruction has no meaning yet. Safe: nothing is claimed of it. -/
  | notModelled (mnemonic : String)
  /-- Raised by a command, or by a host read, that would read a byte of `buf` that holds no value: "A command that would
  read a location that holds no value is refused" (10_state.md R35). Safe: nothing is claimed of such a run. -/
  | noValue (buf : Buffer)
  /-- Raised by a host write to FRMLEN of a value above FRM_CAP, which "is not possible: the register does not hold it"
  (10_state.md R27). Safe: the model stops. -/
  | frmLenAboveCap (n : Nat)
deriving DecidableEq, Repr

/-- The errors of the block (60_exceptions.md R140). -/
inductive PfcError where
  /-- 60_exceptions.md R141. -/
  | incompleteFrame
  /-- 60_exceptions.md R142. -/
  | invalidChecksum
deriving DecidableEq, Repr

/-- The document's Packet record (00_scope.md R3, R15): what DECODE assembles from a frame. -/
structure Packet where
  origin  : U32
  dest    : U32
  seqid   : U32
  csum    : U16
  len     : Byte
  payload : List Byte
deriving DecidableEq, Repr

/-- A byte buffer: the bytes that hold a value, by address. An address not listed holds no value. -/
abbrev Memory := List Host.Cell

/-- What an unlisted byte reads as: no value (10_state.md R34, R35; log 2). -/
def Memory.unlisted : Option Byte := none

/-- The canonical form: addresses strictly rise. Every listed byte differs from what an unlisted address reads as, since
that is no value. -/
def Memory.wf : Memory → Bool
  | [] => true
  | [_] => true
  | (a, _) :: (b, y) :: m => decide (a < b) && Memory.wf ((b, y) :: m)

/-- Which registers have acquired a value since reset (10_state.md R34, R35). No meaning reads these flags: they are read
by Safety.lean (log 7). -/
structure Held where
  origin : Bool
  dest   : Bool
  seqid  : Bool
  csum   : Bool
  len    : Bool
  frmLen : Bool
  status : Bool
deriving DecidableEq, Repr

/-- One instance's private state (10_state.md R36). -/
structure Codec where
  /-- PKT.ORIGIN (R22). -/
  origin : U32
  /-- PKT.DEST (R22). -/
  dest   : U32
  /-- PKT.SEQID (R22). -/
  seqid  : U32
  /-- PKT.CSUM (R22). -/
  csum   : U16
  /-- PKT.LEN (R22). -/
  len    : Byte
  /-- PAY (R25). -/
  pay    : Memory
  /-- FRM (R26). -/
  frm    : Memory
  /-- FRMLEN, 0 to FRM_CAP (R27). -/
  frmLen : Nat
  /-- STATUS (R29). -/
  status : BitVec 2
  /-- ACC, hidden (R32; log 8). -/
  acc    : U32
  /-- Which registers hold a value (R35). -/
  held   : Held
  /-- The model's own: what this instance's host got from its last read (log 6). -/
  answer : Option Nat
deriving DecidableEq, Repr

/-- The machine: the shared counter, the instances, and what the hosts will do next. -/
structure State where
  /-- SEQ, shared by all instances (R20, R36). -/
  seq    : U32
  /-- The instances numbered below the one addressed (log 11). -/
  before : List Codec
  /-- The instance addressed: the one the last event named. -/
  cur    : Codec
  /-- The instances numbered above the one addressed. -/
  after  : List Codec
  /-- The build parameter FRM_CAP (00_scope.md R7; log 4). -/
  frmCap : Nat
  /-- The model's own: what the hosts will do, oldest first (log 5). -/
  input  : List Event
deriving DecidableEq, Repr

/-- All instances in the order of their numbers, 0 to N_INST - 1 (60_exceptions.md R152). -/
def State.insts (s : State) : List Codec := s.before ++ s.cur :: s.after

/-- No register holds a value (10_state.md R34). -/
def Held.none : Held :=
  { origin := false, dest := false, seqid := false, csum := false, len := false, frmLen := false, status := false }

/-- An instance after reset. No byte of PAY or FRM holds a value (R34). The spec gives no register of an instance a value
(R34, D16); the zeros here are the model's choice, and `held` records that none has been given (log 1, log 7). -/
def Codec.reset : Codec :=
  { origin := 0, dest := 0, seqid := 0, csum := 0, len := 0, pay := [], frm := [], frmLen := 0, status := 0, acc := 0
    held := Held.none, answer := Option.none }

/-- The machine after reset with `extra + 1` instances and FRM_CAP = `frmCap` (00_scope.md R7, 70_reset_and_hazards.md
R170): SEQ is 0 and all instances leave reset together (60_exceptions.md R152). -/
def State.resetOf (extra frmCap : Nat) : State :=
  { seq := 0, before := [], cur := Codec.reset, after := List.replicate extra Codec.reset, frmCap := frmCap, input := [] }

/-- The machine right after reset at the parameters' defaults: N_INST = 1, FRM_CAP = 272 (00_scope.md R7). -/
def State.reset : State := State.resetOf 0 frmCapDefault

end Sys2Proof.Machine
end

