-- ==== Sys2Proof/Machine/Flags.lean ====
section
/-! DEFINITION. STATUS, the block's only flag register (10_state.md R29), and the two conditions that set it
(60_exceptions.md R141, R142). -/

namespace Sys2Proof.Machine

/-- STATUS code 0, OK (10_state.md R29). -/
def statusOk : BitVec 2 := 0#2

/-- The STATUS code of an error (10_state.md R29, 60_exceptions.md R141, R142). Code 3 is never produced. -/
def PfcError.code : PfcError → BitVec 2
  | .incompleteFrame => 1#2
  | .invalidChecksum => 2#2

/-- The header test: fewer bytes than a header (42_decode.md R120 step 1). -/
def headerShort (frmLen : Nat) : Bool := decide (frmLen < hdrLen)

/-- The body test: fewer bytes than the header and `l` payload bytes, on natural numbers (42_decode.md R120 step 3). -/
def bodyShort (frmLen : Nat) (l : Byte) : Bool := decide (frmLen < hdrLen + l.toNat)

end Sys2Proof.Machine
end

