-- ==== Sys2Proof/Machine/Ops.lean ====
section
/-! DEFINITION. The named operations over buffers, registers and instances: byte and multi-byte access (20_memory.md R51,
R52), register writes, which give the register a value (10_state.md R35), STATUS at the end of a command, raising an error
(00_scope.md R13) and addressing an instance. -/

namespace Sys2Proof.Machine

/-! ### Buffers -/

/-- The value of byte `a`, none where nothing has written it (10_state.md R35, 20_memory.md R56). -/
def Memory.read : Memory → Nat → Option Byte
  | [], _ => Memory.unlisted
  | (x, v) :: m, a => if x = a then some v else Memory.read m a

/-- Write byte `a`; the list keeps its canonical form (20_memory.md R56). -/
def Memory.write : Memory → Nat → Byte → Memory
  | [], a, v => [(a, v)]
  | (x, y) :: m, a, v =>
    if a < x then (a, v) :: (x, y) :: m
    else if a = x then (a, v) :: m
    else (x, y) :: Memory.write m a v

/-- The `n` bytes from `a` on, none where one of them holds no value. -/
def readBytes (m : Memory) (a : Nat) : Nat → Option (List Byte)
  | 0 => some []
  | n + 1 =>
    match m.read a, readBytes m (a + 1) n with
    | some b, some bs => some (b :: bs)
    | _, _ => none

/-- Write bytes from `a` on. -/
def writeBytes (m : Memory) (a : Nat) : List Byte → Memory
  | [] => m
  | b :: bs => writeBytes (m.write a b) (a + 1) bs

/-- `MemRead(B, a, n)`, little-endian (20_memory.md R52). -/
def memRead (m : Memory) (a n : Nat) : Option Nat := (readBytes m a n).map leValue

/-- `MemWrite(B, a, n, v)`, little-endian (20_memory.md R51). -/
def memWrite (m : Memory) (a n v : Nat) : Memory := writeBytes m a (leBytes n v)

/-! ### Registers of an instance: a write gives the register a value (10_state.md R35) -/

/-- PKT.ORIGIN <- v. -/
def Codec.setOrigin (c : Codec) (v : U32) : Codec := { c with origin := v, held := { c.held with origin := true } }

/-- PKT.DEST <- v. -/
def Codec.setDest (c : Codec) (v : U32) : Codec := { c with dest := v, held := { c.held with dest := true } }

/-- PKT.SEQID <- v. -/
def Codec.setSeqid (c : Codec) (v : U32) : Codec := { c with seqid := v, held := { c.held with seqid := true } }

/-- PKT.CSUM <- v. -/
def Codec.setCsum (c : Codec) (v : U16) : Codec := { c with csum := v, held := { c.held with csum := true } }

/-- PKT.LEN <- v. -/
def Codec.setLen (c : Codec) (v : Byte) : Codec := { c with len := v, held := { c.held with len := true } }

/-- FRMLEN <- n. -/
def Codec.setFrmLen (c : Codec) (n : Nat) : Codec := { c with frmLen := n, held := { c.held with frmLen := true } }

/-- STATUS <- v. -/
def Codec.setStatus (c : Codec) (v : BitVec 2) : Codec := { c with status := v, held := { c.held with status := true } }

/-- ACC <- v (10_state.md R32; log 8). -/
def Codec.setAcc (c : Codec) (v : U32) : Codec := { c with acc := v }

/-- PAY's bytes become those of `m`. -/
def Codec.setPay (c : Codec) (m : Memory) : Codec := { c with pay := m }

/-- FRM's bytes become those of `m`. -/
def Codec.setFrm (c : Codec) (m : Memory) : Codec := { c with frm := m }

/-- A host read delivers `n` (log 6). -/
def Codec.setAnswer (c : Codec) (n : Nat) : Codec := { c with answer := some n }

/-! ### The machine -/

/-- Put `c` in the place of the instance addressed. -/
def State.setCur (s : State) (c : Codec) : State := { s with cur := c }

/-- SEQ <- v. -/
def State.setSeq (s : State) (v : U32) : State := { s with seq := v }

/-- The hosts' remaining events. -/
def State.setInput (s : State) (es : List Event) : State := { s with input := es }

/-- Address instance `k`; none where there is no such instance (60_exceptions.md R152). -/
def State.select (s : State) (k : Nat) : Option State :=
  (s.insts[k]?).map fun c => { s with before := s.insts.take k, cur := c, after := s.insts.drop (k + 1) }

/-! ### How a command ends -/

/-- The command completes with STATUS <- OK (10_state.md R29). -/
def State.complete (s : State) (c : Codec) : Host.Outcome State Fault Refusal :=
  .next (s.setCur (c.setStatus statusOk))

/-- `raise E`: STATUS <- the code of E and the command ends; nothing else is written and control goes nowhere
(00_scope.md R13, 60_exceptions.md R147). There is no return from it (R148): the next command overwrites STATUS. -/
def State.raise (s : State) (c : Codec) (e : PfcError) : Host.Outcome State Fault Refusal :=
  .next (s.setCur (c.setStatus e.code))

end Sys2Proof.Machine
end

