-- ==== Sys2Proof/Machine/Operands.lean ====
section
/-! DEFINITION. The implicit operands of the commands (30_encoding.md R72): the payload in PAY, the fields of a frame in
FRM (R73 to R79), and the checksum of 40_checksum.md R100. -/

namespace Sys2Proof.Machine

/-- `zext_32` of a byte (00_scope.md R10, 30_encoding.md R80). -/
def zext32 (b : Byte) : U32 := b.setWidth 32

/-- `trunc_16` of a 32-bit value (00_scope.md R10). -/
def trunc16 (v : U32) : U16 := v.setWidth 16

/-- ACC after the last addition of 40_checksum.md R100; `+` on U32 is `+32` and drops the carry. -/
def accSum (o d s : U32) (l : Byte) (p : List Byte) : U32 :=
  p.foldl (fun acc b => acc + zext32 b) (0 + o + d + s + zext32 l)

/-- `csum16(o, d, s, l, p)` (40_checksum.md R100). -/
def csum16 (o d s : U32) (l : Byte) (p : List Byte) : U16 := trunc16 (accSum o d s l p)

/-- PAY[0 .. PKT.LEN), none where one of the bytes holds no value (10_state.md R25, R35). -/
def Codec.payload (c : Codec) : Option (List Byte) := readBytes c.pay 0 c.len.toNat

/-- ACC of the packet held in PKT with payload `p` (40_checksum.md R100). -/
def Codec.packetSum (c : Codec) (p : List Byte) : U32 := accSum c.origin c.dest c.seqid c.len p

/-- ACC forms the sum of the packet held and PKT.CSUM takes its low half (40_checksum.md R100, R101). -/
def Codec.storeChecksum (c : Codec) (p : List Byte) : Codec :=
  (c.setAcc (c.packetSum p)).setCsum (trunc16 (c.packetSum p))

/-- FRM[LEN_OFF], none where it holds no value (30_encoding.md R79, 42_decode.md R120 step 2). -/
def frameLength (m : Memory) : Option Byte := (memRead m offLen 1).map (BitVec.ofNat 8)

/-- The fields of a frame of payload length `l`, none where a byte they stand in holds no value (30_encoding.md R77 to
R79, 42_decode.md R120 step 4, R121). FRM[0] and FRM[1] are not read (R122). -/
def readFrame (m : Memory) (l : Byte) : Option Packet := do
  let o ← memRead m offOrigin 4
  let d ← memRead m offDest 4
  let s ← memRead m offSeq 4
  let c ← memRead m offCsum 2
  let p ← readBytes m hdrLen l.toNat
  return { origin := BitVec.ofNat 32 o, dest := BitVec.ofNat 32 d, seqid := BitVec.ofNat 32 s, csum := BitVec.ofNat 16 c,
           len := l, payload := p }

/-- ACC of a packet's fields (42_decode.md R120 step 5). -/
def Packet.sum (p : Packet) : U32 := accSum p.origin p.dest p.seqid p.len p.payload

/-- FRM after the writes of 41_encode.md R110, for the packet held in PKT with payload `p`. -/
def Codec.marshal (c : Codec) (p : List Byte) : Memory :=
  let m := memWrite c.frm offSync 1 Config.sync0.toNat
  let m := memWrite m (offSync + 1) 1 Config.sync1.toNat
  let m := memWrite m offOrigin 4 c.origin.toNat
  let m := memWrite m offDest 4 c.dest.toNat
  let m := memWrite m offSeq 4 c.seqid.toNat
  let m := memWrite m offCsum 2 c.csum.toNat
  let m := memWrite m offLen 1 c.len.toNat
  writeBytes m hdrLen p

/-- PKT <- the fields and PAY[0 .. l) <- the payload (42_decode.md R120 step 6); other bytes of PAY stay (R124). -/
def Codec.loadPacket (c : Codec) (p : Packet) : Codec :=
  ((((((c.setOrigin p.origin).setDest p.dest).setSeqid p.seqid).setCsum p.csum).setLen p.len).setPay
    (writeBytes c.pay 0 p.payload))

end Sys2Proof.Machine
end

