-- ==== Sys2Proof/Machine/Checksum.lean ====
section
/-! DEFINITION. CSUM (40_checksum.md R101). -/

namespace Sys2Proof.Machine

/-- CSUM: PKT.CSUM <- csum16 of the packet held, STATUS <- OK (40_checksum.md R101). A payload byte that holds no value
refuses it (10_state.md R35). -/
def execCsum (s : State) : Host.Outcome State Fault Refusal :=
  match s.cur.payload with
  | none => .refused (.noValue .pay)
  | some p => s.complete (s.cur.storeChecksum p)

end Sys2Proof.Machine
end

