-- ==== Sys2Proof/Machine/Construct.lean ====
section
/-! DEFINITION. NEW (43_new.md R130 to R133). -/

namespace Sys2Proof.Machine

/-- The next sequence id: SEQ +32 1, incremented before use and wrapping to 0 (43_new.md R131, R133; log 10). -/
def nextSeq (seq : U32) : U32 := seq + 1

/-- NEW: SEQ <- SEQ +32 1, PKT.ORIGIN <- 0, PKT.SEQID <- the new SEQ, PKT.CSUM <- the checksum, STATUS <- OK (43_new.md
R130). A payload byte that holds no value refuses it (10_state.md R35). -/
def execNew (s : State) : Host.Outcome State Fault Refusal :=
  match s.cur.payload with
  | none => .refused (.noValue .pay)
  | some p =>
    (s.setSeq (nextSeq s.seq)).complete
      (((s.cur.setOrigin originLocal).setSeqid (nextSeq s.seq)).storeChecksum p)

end Sys2Proof.Machine
end

