-- ==== Sys2Proof/Machine/Marshal.lean ====
section
/-! DEFINITION. ENCODE (41_encode.md R110, R111). -/

namespace Sys2Proof.Machine

/-- ENCODE: FRM[0 .. 17 + LEN) <- the frame of the packet held, PKT.CSUM as it stands (R111), FRMLEN <- 17 + LEN, STATUS
<- OK (41_encode.md R110). A payload byte that holds no value refuses it (10_state.md R35). -/
def execEncode (s : State) : Host.Outcome State Fault Refusal :=
  match s.cur.payload with
  | none => .refused (.noValue .pay)
  | some p => s.complete ((s.cur.setFrm (s.cur.marshal p)).setFrmLen (hdrLen + s.cur.len.toNat))

end Sys2Proof.Machine
end

