-- ==== Sys2Proof/Machine/Unmarshal.lean ====
section
/-! DEFINITION. DECODE (42_decode.md R120 to R124). -/

namespace Sys2Proof.Machine

/-- Steps 5 and 6 of 42_decode.md R120, once the fields are assembled: compare the checksum, then raise InvalidChecksum
or write PKT and PAY. ACC holds the sum in both cases (10_state.md R32; log 8). -/
def checkAndLoad (s : State) (p : Packet) : Host.Outcome State Fault Refusal :=
  if trunc16 p.sum ≠ p.csum then s.raise (s.cur.setAcc p.sum) .invalidChecksum
  else s.complete ((s.cur.setAcc p.sum).loadPacket p)

/-- DECODE: the header test, the body test, the checksum test, in that order, then PKT and PAY (42_decode.md R120). It
reads only what R121 lists for the case at hand; a byte among those that holds no value refuses it (10_state.md R35). -/
def execDecode (s : State) : Host.Outcome State Fault Refusal :=
  if headerShort s.cur.frmLen then s.raise s.cur .incompleteFrame
  else
    match frameLength s.cur.frm with
    | none => .refused (.noValue .frm)
    | some l =>
      if bodyShort s.cur.frmLen l then s.raise s.cur .incompleteFrame
      else
        match readFrame s.cur.frm l with
        | none => .refused (.noValue .frm)
        | some p => checkAndLoad s p

end Sys2Proof.Machine
end

