-- ==== Sys2Proof/Machine/HostAccess.lean ====
section
/-! DEFINITION. What a host's accesses do to the instance addressed (10_state.md R24, R26, R27, R29; 60_exceptions.md
R149), and the directives and pseudo-instructions of 30_encoding.md R86 as lists of host actions. -/

namespace Sys2Proof.Machine

/-- The instance after a host write that is not stopped: the one register or byte it names is written. -/
def Codec.written (c : Codec) (w : HostWrite) : Codec :=
  match w with
  | .origin v => c.setOrigin v
  | .dest v => c.setDest v
  | .seqid v => c.setSeqid v
  | .csum v => c.setCsum v
  | .len v => c.setLen v
  | .frmLen n => c.setFrmLen n
  | .pay i b => c.setPay (c.pay.write i b)
  | .frm i b => c.setFrm (c.frm.write i b)

/-- A host write (10_state.md R24, R26, R27). A byte outside its buffer does not exist, and FRMLEN does not hold a value above
FRM_CAP (log 6). -/
def hostWrite (w : HostWrite) (s : State) : Host.Outcome State Fault Refusal :=
  match w with
  | .origin _ => .next (s.setCur (s.cur.written w))
  | .dest _ => .next (s.setCur (s.cur.written w))
  | .seqid _ => .next (s.setCur (s.cur.written w))
  | .csum _ => .next (s.setCur (s.cur.written w))
  | .len _ => .next (s.setCur (s.cur.written w))
  | .frmLen n => if n ≤ s.frmCap then .next (s.setCur (s.cur.written w)) else .refused (.frmLenAboveCap n)
  | .pay i _ => if i < payCap then .next (s.setCur (s.cur.written w)) else .fault (.noSuchByte .pay i)
  | .frm i _ => if i < s.frmCap then .next (s.setCur (s.cur.written w)) else .fault (.noSuchByte .frm i)

/-- A host read of a byte: refused where the byte holds no value (10_state.md R35). -/
def hostReadByte (buf : Buffer) (b : Option Byte) (s : State) : Host.Outcome State Fault Refusal :=
  match b with
  | none => .refused (.noValue buf)
  | some v => .next (s.setCur (s.cur.setAnswer v.toNat))

/-- A host read changes nothing of the block (20_memory.md R56); its value goes to the host (log 6). A register always
delivers its value (log 1). -/
def hostRead (r : HostRead) (s : State) : Host.Outcome State Fault Refusal :=
  match r with
  | .origin => .next (s.setCur (s.cur.setAnswer s.cur.origin.toNat))
  | .dest => .next (s.setCur (s.cur.setAnswer s.cur.dest.toNat))
  | .seqid => .next (s.setCur (s.cur.setAnswer s.cur.seqid.toNat))
  | .csum => .next (s.setCur (s.cur.setAnswer s.cur.csum.toNat))
  | .len => .next (s.setCur (s.cur.setAnswer s.cur.len.toNat))
  | .frmLen => .next (s.setCur (s.cur.setAnswer s.cur.frmLen))
  | .status => .next (s.setCur (s.cur.setAnswer s.cur.status.toNat))
  | .pay i => if i < payCap then hostReadByte .pay (s.cur.pay.read i) s else .fault (.noSuchByte .pay i)
  | .frm i => if i < s.frmCap then hostReadByte .frm (s.cur.frm.read i) s else .fault (.noSuchByte .frm i)

/-- Host writes of consecutive bytes of PAY from `i` on. -/
def payWrites (i : Nat) : List Byte → List HostAction
  | [] => []
  | b :: bs => .write (.pay i b) :: payWrites (i + 1) bs

/-- Host writes of consecutive bytes of FRM from `i` on. -/
def frmWrites (i : Nat) : List Byte → List HostAction
  | [] => []
  | b :: bs => .write (.frm i b) :: frmWrites (i + 1) bs

/-- LOADPAY: PAY[0 .. n) and PKT.LEN <- n, n at most 255 (30_encoding.md R86). None for a longer payload, which cannot
be presented (10_state.md R25, 70_reset_and_hazards.md R174, 93_implementation_defined.md U1). -/
def loadPay (bs : List Byte) : Option (List HostAction) :=
  if bs.length ≤ payCap then some (payWrites 0 bs ++ [.write (.len (BitVec.ofNat 8 bs.length))]) else none

/-- LOADFRM: FRM[0 .. n) and FRMLEN <- n (30_encoding.md R86). -/
def loadFrm (bs : List Byte) : List HostAction := frmWrites 0 bs ++ [.write (.frmLen bs.length)]

/-- PATCH FRM[i], b (30_encoding.md R86). -/
def patchFrm (i : Nat) (b : Byte) : List HostAction := [.write (.frm i b)]

/-- SEND: NEW then ENCODE (30_encoding.md R86). -/
def send : List HostAction := [.issue 0b11#2, .issue 0b01#2]

/-- MAKE: CSUM then ENCODE (30_encoding.md R86). -/
def make : List HostAction := [.issue 0b00#2, .issue 0b01#2]

end Sys2Proof.Machine
end

