-- ==== Sys2Proof/Machine/HostStep.lean ====
section
/-! DEFINITION. One event: the instance it names is addressed, then the host's access or the command takes place
(60_exceptions.md R149). -/

namespace Sys2Proof.Machine

/-- One host action on the instance addressed. A command is one indivisible step (60_exceptions.md R149). -/
def perform (a : HostAction) (s : State) : Host.Outcome State Fault Refusal :=
  match a with
  | .write w => hostWrite w s
  | .read r => hostRead r s
  | .issue op => exec (decodeOp op) s

/-- One event. -/
def runEvent (e : Event) (s : State) : Host.Outcome State Fault Refusal :=
  match s.select e.inst with
  | none => .fault (.noSuchInstance e.inst)
  | some s' => perform e.action s'

/-- The oldest event takes place and leaves the input. With no event the block is idle and stays as it is (60_exceptions.md
R149, "the PFC is idle after every command and ready for the next"; log 5). -/
def nextEvent (s : State) : Host.Outcome State Fault Refusal :=
  match s.input with
  | [] => .next s
  | e :: es => runEvent e (s.setInput es)

/-- `s` with the op value in bits 1:0 of `w` issued to the instance addressed as the next event (log 5). -/
def issueNext (s : State) (w : Nat) : State :=
  s.setInput (⟨s.before.length, .issue (BitVec.ofNat 2 w)⟩ :: s.input)

end Sys2Proof.Machine
end

