-- ==== Sys2Proof/Machine/Step.lean ====
section
/-! DEFINITION. One step of the machine, and where the host places the next command. -/

namespace Sys2Proof.Machine

/-- One step: the oldest pending event (60_exceptions.md R149). -/
def step (s : State) : Host.Outcome State Fault Refusal := nextEvent s

/-- `s` with the command of table word `w` as its next event: nothing is fetched (10_state.md R33), a host presents it
on OP (R30; log 5). -/
def State.withFetchWord (s : State) (_nbits w : Nat) : State := issueNext s w

end Sys2Proof.Machine
end

