-- ==== Sys2Proof/Safety.lean ====
section
/-! DEFINITION. What claims are stated in: the invariant of a state, which locations hold a value, and when an event reads
only such locations (10_state.md R35, 70_reset_and_hazards.md R171). -/

namespace Sys2Proof.Machine

/-- Every listed byte of the buffer has an address below `cap`. -/
def Memory.below (m : Memory) (cap : Nat) : Bool := m.all fun cell => decide (cell.1 < cap)

/-- An instance is as the spec describes it: both buffers in canonical form and within their sizes, FRMLEN at most FRM_CAP,
STATUS not the code that is never produced (10_state.md R25 to R27, R29). -/
def Codec.inv (frmCap : Nat) (c : Codec) : Bool :=
  c.pay.wf && c.pay.below payCap && c.frm.wf && c.frm.below frmCap && decide (c.frmLen ≤ frmCap) && decide (c.status ≠ 3#2)

/-- FRM_CAP is at least 272 (00_scope.md R7) and every instance meets its invariant. -/
def State.inv (s : State) : Bool := decide (frmCapDefault ≤ s.frmCap) && s.insts.all (Codec.inv s.frmCap)

/-- The registers a command reads hold a value (10_state.md R23, R35; 42_decode.md R121). Whether the bytes it reads do is
decided by the command itself, which is refused where one does not. -/
def commandReadsHeld (i : Instr) (c : Codec) : Bool :=
  match i with
  | .csum => c.held.origin && c.held.dest && c.held.seqid && c.held.len
  | .encode => c.held.origin && c.held.dest && c.held.seqid && c.held.csum && c.held.len
  | .decode => c.held.frmLen
  | .new => c.held.dest && c.held.len

/-- The register a host reads holds a value (10_state.md R35). -/
def HostRead.readsHeld (r : HostRead) (c : Codec) : Bool :=
  match r with
  | .origin => c.held.origin
  | .dest => c.held.dest
  | .seqid => c.held.seqid
  | .csum => c.held.csum
  | .len => c.held.len
  | .frmLen => c.held.frmLen
  | .status => c.held.status
  | .pay _ => true
  | .frm _ => true

/-- The registers an action reads hold a value. -/
def HostAction.readsHeld (a : HostAction) (c : Codec) : Bool :=
  match a with
  | .write _ => true
  | .read r => r.readsHeld c
  | .issue op => commandReadsHeld (decodeOp op) c

/-- The next event, if there is one, reads only registers that hold a value: the part of 10_state.md R35 that `exec` does
not enforce (log 1, log 7). -/
def State.readsHeld (s : State) : Bool :=
  match s.input with
  | [] => true
  | e :: _ =>
    match s.select e.inst with
    | none => true
    | some t => e.action.readsHeld t.cur

/-- Two instances agree on everything that holds a value. ACC is not compared: it is unobservable (10_state.md R32). -/
def Codec.AgreeHeld (a b : Codec) : Prop :=
  a.held = b.held ∧ a.pay = b.pay ∧ a.frm = b.frm ∧ a.answer = b.answer ∧
  (a.held.origin = true → a.origin = b.origin) ∧ (a.held.dest = true → a.dest = b.dest) ∧
  (a.held.seqid = true → a.seqid = b.seqid) ∧ (a.held.csum = true → a.csum = b.csum) ∧
  (a.held.len = true → a.len = b.len) ∧ (a.held.frmLen = true → a.frmLen = b.frmLen) ∧
  (a.held.status = true → a.status = b.status)

/-- Two machines agree on everything that holds a value. -/
def State.AgreeHeld (s t : State) : Prop :=
  s.seq = t.seq ∧ s.frmCap = t.frmCap ∧ s.input = t.input ∧ s.cur.AgreeHeld t.cur ∧
  List.Forall₂ Codec.AgreeHeld s.before t.before ∧ List.Forall₂ Codec.AgreeHeld s.after t.after

/-- Two outcomes are alike: next states that agree on everything that holds a value, or one and the same stop. -/
def AgreeOutcome : Host.Outcome State Fault Refusal → Host.Outcome State Fault Refusal → Prop
  | .next s, .next t => s.AgreeHeld t
  | .fault r, .fault r' => r = r'
  | .refused r, .refused r' => r = r'
  | _, _ => False

/-- How many NEW commands a list of events issues (10_state.md R20). -/
def newCount : List Event → Nat
  | [] => 0
  | ⟨_, .issue op⟩ :: es => (if decodeOp op = .new then 1 else 0) + newCount es
  | ⟨_, .write _⟩ :: es => newCount es
  | ⟨_, .read _⟩ :: es => newCount es

/-- `n` steps, stopping at the first fault or refusal. -/
def run : Nat → State → Host.Outcome State Fault Refusal
  | 0, s => .next s
  | n + 1, s =>
    match step s with
    | .next s' => run n s'
    | .fault r => .fault r
    | .refused r => .refused r

/-! ### The vocabulary of the statements -/

/-- The sum of 40_checksum.md R100 before truncation, in ordinary arithmetic. -/
def exactSum (o d s : U32) (l : Byte) (p : List Byte) : Nat :=
  o.toNat + d.toNat + s.toNat + l.toNat + (p.map BitVec.toNat).sum

/-- The exact sum of the packet held in PKT with payload `p`. -/
def Codec.exactSum (c : Codec) (p : List Byte) : Nat := Machine.exactSum c.origin c.dest c.seqid c.len p

/-- The payload of the packet held is `p`: PAY[0 .. PKT.LEN) hold these bytes in order (10_state.md R25). -/
def Codec.PayloadIs (c : Codec) (p : List Byte) : Prop :=
  p.length = c.len.toNat ∧ ∀ i < p.length, c.pay.read i = p[i]?

/-- The bytes of `m` from offset 2 on are the fields of the packet `p` as 30_encoding.md R73 lays them out. -/
def FrameAt (m : Memory) (p : Packet) : Prop :=
  memRead m 2 4 = some p.origin.toNat ∧ memRead m 6 4 = some p.dest.toNat ∧ memRead m 10 4 = some p.seqid.toNat ∧
  memRead m 14 2 = some p.csum.toNat ∧ memRead m 16 1 = some p.len.toNat ∧ p.payload.length = p.len.toNat ∧
  ∀ i < p.payload.length, m.read (17 + i) = p.payload[i]?

/-- The packet's checksum field satisfies the invariant (00_scope.md R15, "valid Packet"). -/
def Packet.Valid (p : Packet) : Prop :=
  p.csum.toNat = Machine.exactSum p.origin p.dest p.seqid p.len p.payload % 65536

/-- The packet held in PKT and PAY, its payload given. -/
def Codec.packet (c : Codec) (p : List Byte) : Packet :=
  { origin := c.origin, dest := c.dest, seqid := c.seqid, csum := c.csum, len := c.len, payload := p }

/-- DECODE reads FRM[a] (42_decode.md R121). -/
def Codec.DecodeReads (c : Codec) (a : Nat) : Prop :=
  17 ≤ c.frmLen ∧ (a = 16 ∨ ∃ l, c.frm.read 16 = some l ∧ 17 + l.toNat ≤ c.frmLen ∧ 2 ≤ a ∧ a < 17 + l.toNat)

/-- The frame in FRM is too short for its header or for its declared payload (42_decode.md R120 steps 1 and 3). -/
def Codec.tooShort (c : Codec) : Prop :=
  c.frmLen < hdrLen ∨ ∃ l, frameLength c.frm = some l ∧ c.frmLen < hdrLen + l.toNat

/-- FRM holds a whole frame whose fields are those of `p` (42_decode.md R120 steps 2 to 4). -/
def Codec.holdsFrame (c : Codec) (p : Packet) : Prop :=
  hdrLen + p.len.toNat ≤ c.frmLen ∧ frameLength c.frm = some p.len ∧ readFrame c.frm p.len = some p

/-- Every byte reads the same. -/
def SameBytes (m m' : Memory) : Prop := ∀ a, m'.read a = m.read a

/-- The five packet registers hold the same values (10_state.md R22). -/
def Codec.SamePacketRegs (c c' : Codec) : Prop :=
  c'.origin = c.origin ∧ c'.dest = c.dest ∧ c'.seqid = c.seqid ∧ c'.csum = c.csum ∧ c'.len = c.len

/-- Every instance but the one addressed, FRM_CAP and the hosts' remaining events are the same. -/
def State.SameAround (s t : State) : Prop :=
  t.before = s.before ∧ t.after = s.after ∧ t.frmCap = s.frmCap ∧ t.input = s.input

/-- The outcome with its next state changed by `f`; a stop stays as it is. -/
def mapNext (f : State → State) : Host.Outcome State Fault Refusal → Host.Outcome State Fault Refusal
  | .next s => .next (f s)
  | .fault r => .fault r
  | .refused r => .refused r

end Sys2Proof.Machine
end

