-- ==== Sys2Proof/Certificates/Slice0/Obligations.lean ====
section
/-! DEFINITION. The statements for the provers. Offsets, widths and codes are written as the spec's numbers, not as the
model's names for them. They speak of all states, also of those in which a register has never been written: what a command
or a host that reads such a register does there is the model's choice (log 1), where the spec refuses the read (10_state.md
R35). -/

open Sys2Proof Sys2Proof.Machine

/-! ### Command codes and the step -/

/-- 30_encoding.md R71: the opcode map, both ways. -/
def Obligations.OpcodeMapIsAsTabled : Prop :=
  decodeOp 0b00#2 = .csum ∧ decodeOp 0b01#2 = .encode ∧ decodeOp 0b10#2 = .decode ∧ decodeOp 0b11#2 = .new ∧
  encode .csum = 0b00#2 ∧ encode .encode = 0b01#2 ∧ encode .decode = 0b10#2 ∧ encode .new = 0b11#2

/-- 30_encoding.md R81: every value of op is a command, no two are the same one, and no command answers with a fault. -/
def Obligations.EveryOpValueIsACommand : Prop :=
  (∀ op : BitVec 2, encode (decodeOp op) = op ∧ (decodeOp op).wellFormed = true) ∧
  (∀ i : Instr, decodeOp (encode i) = i) ∧
  ∀ (op : BitVec 2) (s : State) (r : Fault), exec (decodeOp op) s ≠ .fault r

/-- The byte form of the command code (the model's choice, log 12): a command's byte decodes to it and leaves the rest, and
a byte with a bit set above bits 1:0 is rejected by name. -/
def Obligations.CommandByteDecodesOrIsRejected : Prop :=
  (∀ (i : Instr) (rest : List Byte), decode (encodeBytes i ++ rest) = .ok (i, rest)) ∧
  (∀ (b : Byte) (rest : List Byte), 4 ≤ b.toNat → decode (b :: rest) = .error (.notACommand b)) ∧
  decode [] = .error .noByte

/-- A step whose oldest event names an instance that exists performs that event's action there, with the event taken off the
input and the instances in their places: a host write, a host read, or, for the issue of op, `exec` of the command op decodes
to. It holds for every action and every instance, the one already addressed or another (the input and the address are the
model's form, log 5 and log 11). -/
def Obligations.StepRunsTheIssuedCommand : Prop :=
  ∀ (s : State) (e : Event) (es : List Event), s.input = e :: es → e.inst < s.insts.length →
    ∃ s', s'.insts = s.insts ∧ s.insts[e.inst]? = some s'.cur ∧ s'.before.length = e.inst ∧ s'.seq = s.seq ∧
      s'.frmCap = s.frmCap ∧ s'.input = es ∧ step s = perform e.action s' ∧
      ∀ op, e.action = .issue op → step s = exec (decodeOp op) s'

/-- A command placed as the next event is the one the next step runs, on the instance addressed, and nothing else of the
state is touched by placing it. -/
def Obligations.PlacedCommandRunsNext : Prop :=
  ∀ (s : State) (nbits w : Nat) (i : Instr), decodeTableWord nbits w = some i →
    step (s.withFetchWord nbits w) = exec i s

/-- 60_exceptions.md R149, "the PFC is idle after every command and ready for the next": with no event pending a step
changes nothing (the model's choice, log 5). -/
def Obligations.IdleStepChangesNothing : Prop :=
  ∀ s : State, s.input = [] → step s = .next s

/-- An event for an instance that does not exist stops the run by name (the model's choice, log 11). -/
def Obligations.EventForAbsentInstanceFaults : Prop :=
  ∀ (s : State) (e : Event) (es : List Event), s.input = e :: es → s.insts.length ≤ e.inst →
    step s = .fault (.noSuchInstance e.inst)

/-! ### Reset and the invariant -/

/-- 10_state.md R34, 70_reset_and_hazards.md R170: after reset SEQ is 0 and no register, no byte of PAY and no byte of FRM of
any instance holds a value (which registers hold one is the model's record `held`, log 7). -/
def Obligations.ResetGivesOnlySeqAValue : Prop :=
  ∀ extra frmCap : Nat,
    (State.resetOf extra frmCap).seq = 0#32 ∧ (State.resetOf extra frmCap).insts.length = extra + 1 ∧
    (State.resetOf extra frmCap).frmCap = frmCap ∧
    (∀ c ∈ (State.resetOf extra frmCap).insts,
      c.held = ⟨false, false, false, false, false, false, false⟩ ∧ ∀ a, c.pay.read a = none ∧ c.frm.read a = none) ∧
    State.reset = State.resetOf 0 272

/-- The state after reset meets the invariant, for every N_INST and every FRM_CAP of at least 272 (00_scope.md R7). That FRMLEN
is at most FRM_CAP and that STATUS is not 3 there is the model's choice: the spec gives neither register a value at reset
(10_state.md R34), the model gives both 0 (log 1). -/
def Obligations.ResetMeetsTheInvariant : Prop :=
  State.reset.inv = true ∧ ∀ extra frmCap : Nat, 272 ≤ frmCap → (State.resetOf extra frmCap).inv = true

/-- Every step from every state that meets the invariant, not only from those a run reaches, ends in one that meets it:
buffers canonical and within 255 and FRM_CAP bytes, FRMLEN at most FRM_CAP, STATUS never 3 (10_state.md R25 to R29). -/
def Obligations.EveryStepKeepsTheInvariant : Prop :=
  ∀ s t : State, s.inv = true → step s = .next t → t.inv = true

/-! ### Byte order -/

/-- 20_memory.md R51: MemWrite writes byte k of the value at a + k and no other byte, for n in {1, 2, 4}. -/
def Obligations.MemWriteIsLittleEndian : Prop :=
  (∀ (m : Memory) (a n v : Nat), n = 1 ∨ n = 2 ∨ n = 4 → v < 2 ^ (8 * n) →
    (∀ k < n, (memWrite m a n v).read (a + k) = some (BitVec.ofNat 8 (v / 2 ^ (8 * k)))) ∧
    ∀ x, x < a ∨ a + n ≤ x → (memWrite m a n v).read x = m.read x) ∧
  (∀ m : Memory, let m' := memWrite m 6 4 0x00000002
    m'.read 6 = some 0x02#8 ∧ m'.read 7 = some 0x00#8 ∧ m'.read 8 = some 0x00#8 ∧ m'.read 9 = some 0x00#8) ∧
  ∀ m : Memory, let m' := memWrite m 14 2 0x1234
    m'.read 14 = some 0x34#8 ∧ m'.read 15 = some 0x12#8

/-- 20_memory.md R52: MemRead is B[a] + 2^8 B[a+1] + ..., it gives back what MemWrite wrote, and a narrower read inside a
written field sees the corresponding bytes. -/
def Obligations.MemReadAssemblesLittleEndian : Prop :=
  (∀ (m : Memory) (a : Nat) (bs : List Byte), bs.length = 1 ∨ bs.length = 2 ∨ bs.length = 4 →
    (∀ i < bs.length, m.read (a + i) = bs[i]?) →
    memRead m a bs.length = some ((List.range bs.length).map fun k => 2 ^ (8 * k) * (bs.getD k 0#8).toNat).sum ∧
    ((List.range bs.length).map fun k => 2 ^ (8 * k) * (bs.getD k 0#8).toNat).sum < 2 ^ (8 * bs.length)) ∧
  (∀ (m : Memory) (a n v : Nat), n = 1 ∨ n = 2 ∨ n = 4 → v < 2 ^ (8 * n) → memRead (memWrite m a n v) a n = some v) ∧
  (∀ (m : Memory) (a n v k j : Nat), n = 1 ∨ n = 2 ∨ n = 4 → v < 2 ^ (8 * n) → j = 1 ∨ j = 2 ∨ j = 4 → k + j ≤ n →
    memRead (memWrite m a n v) (a + k) j = some (v / 2 ^ (8 * k) % 2 ^ (8 * j))) ∧
  ∀ m : Memory, memRead (memWrite m 2 4 0xAABBCCDD) 2 1 = some 0xDD ∧ memRead (memWrite m 2 4 0xAABBCCDD) 4 2 = some 0xAABB

/-- 20_memory.md R56: reading a byte changes nothing but what the host learns, and learns the last value written; writing a
byte changes that byte and nothing else. For every byte of PAY and of FRM that exists. (That what the host learns stands in
`answer` is the model's choice, log 6.) -/
def Obligations.BuffersAreStorage : Prop :=
  (∀ (s : State) (i : Nat) (b : Byte), i < 255 →
    ∃ t, perform (.write (.pay i b)) s = .next t ∧ t.cur.pay.read i = some b ∧
      (∀ a, a ≠ i → t.cur.pay.read a = s.cur.pay.read a) ∧
      t = { s with cur := { s.cur with pay := t.cur.pay } } ∧
      perform (.read (.pay i)) t = .next { t with cur := { t.cur with answer := some b.toNat } }) ∧
  (∀ (s : State) (i : Nat) (b : Byte), i < s.frmCap →
    ∃ t, perform (.write (.frm i b)) s = .next t ∧ t.cur.frm.read i = some b ∧
      (∀ a, a ≠ i → t.cur.frm.read a = s.cur.frm.read a) ∧
      t = { s with cur := { s.cur with frm := t.cur.frm } } ∧
      perform (.read (.frm i)) t = .next { t with cur := { t.cur with answer := some b.toNat } }) ∧
  ∀ (s t : State) (r : HostRead), perform (.read r) s = .next t →
    t = { s with cur := { s.cur with answer := t.cur.answer } } ∧ perform (.read r) t = .next t

/-! ### The checksum -/

/-- 40_checksum.md R100: csum16 is the exact sum truncated to 16 bits, and the accumulator is the exact sum modulo 2^32,
whose low half is the result. -/
def Obligations.ChecksumIsTheTruncatedSum : Prop :=
  ∀ (o d s : U32) (l : Byte) (p : List Byte),
    (csum16 o d s l p).toNat = (o.toNat + d.toNat + s.toNat + l.toNat + (p.map BitVec.toNat).sum) % 65536 ∧
    (accSum o d s l p).toNat = (o.toNat + d.toNat + s.toNat + l.toNat + (p.map BitVec.toNat).sum) % 4294967296 ∧
    csum16 o d s l p = (accSum o d s l p).extractLsb' 0 16

/-- 40_checksum.md R102: an accumulator of any width W of at least 16 gives the same result, so the low halves alone decide
it; the exact sum of a payload of l bytes is at most 12884967165; and the 32-bit accumulator can wrap. -/
def Obligations.ChecksumNeedsOnlySixteenBits : Prop :=
  (∀ (W : Nat) (o d s : U32) (l : Byte) (p : List Byte), 16 ≤ W →
    (csum16 o d s l p).toNat = exactSum o d s l p % 2 ^ W % 65536) ∧
  (∀ (o d s : U32) (l : Byte) (p : List Byte),
    (csum16 o d s l p).toNat =
      (o.toNat % 65536 + d.toNat % 65536 + s.toNat % 65536 + l.toNat + (p.map BitVec.toNat).sum) % 65536) ∧
  (∀ (o d s : U32) (l : Byte) (p : List Byte), p.length = l.toNat → exactSum o d s l p ≤ 12884967165) ∧
  accSum 0xFFFFFFFF#32 1#32 0#32 0#8 [] = 0#32

/-- 40_checksum.md R104, law L3: no reordering of the payload changes the checksum. -/
def Obligations.ChecksumIgnoresPayloadOrder : Prop :=
  ∀ (o d s : U32) (l : Byte) (p q : List Byte), p.Perm q → csum16 o d s l p = csum16 o d s l q

/-- 40_checksum.md R104, first row: one payload byte changed to a different value always changes the checksum. -/
def Obligations.OneChangedByteChangesTheChecksum : Prop :=
  ∀ (o d s : U32) (l : Byte) (p : List Byte) (i : Nat) (b : Byte), i < p.length → p[i]? ≠ some b →
    csum16 o d s l (p.set i b) ≠ csum16 o d s l p

/-- 40_checksum.md R104: a change of bits 15:0 of origin, destination or sequence_id alone always changes the checksum, and a
change of bits 31:16 never does. -/
def Obligations.WordChangesShowOnlyInTheLowHalf : Prop :=
  ∀ (o d s v : U32) (l : Byte) (p : List Byte),
    (csum16 v d s l p = csum16 o d s l p ↔ v.toNat % 65536 = o.toNat % 65536) ∧
    (csum16 o v s l p = csum16 o d s l p ↔ v.toNat % 65536 = d.toNat % 65536) ∧
    (csum16 o d v l p = csum16 o d s l p ↔ v.toNat % 65536 = s.toNat % 65536)

/-! ### CSUM -/

/-- 40_checksum.md R101: CSUM completes from every state whose payload bytes hold a value; PKT.CSUM becomes the checksum of
the packet held and STATUS OK. -/
def Obligations.CsumStoresThePacketChecksum : Prop :=
  ∀ (s : State) (p : List Byte), s.cur.PayloadIs p →
    ∃ t, exec .csum s = .next t ∧ t.cur.csum.toNat = s.cur.exactSum p % 65536 ∧ t.cur.status = 0#2

/-- 40_checksum.md R101, the frame of CSUM: it writes PKT.CSUM, STATUS and the hidden ACC, and leaves every other register,
SEQ, FRMLEN, every byte of PAY and FRM and every other instance as they were.
(`held` records which registers hold a value: the model's, log 7.) -/
def Obligations.CsumLeavesTheRest : Prop :=
  ∀ s t : State, exec .csum s = .next t →
    t.cur.origin = s.cur.origin ∧ t.cur.dest = s.cur.dest ∧ t.cur.seqid = s.cur.seqid ∧ t.cur.len = s.cur.len ∧
    t.cur.frmLen = s.cur.frmLen ∧ t.cur.answer = s.cur.answer ∧
    t.cur.held = { s.cur.held with csum := true, status := true } ∧
    SameBytes s.cur.pay t.cur.pay ∧ SameBytes s.cur.frm t.cur.frm ∧ t.seq = s.seq ∧ s.SameAround t

/-! ### ENCODE -/

/-- 41_encode.md R110: ENCODE completes from every state whose payload bytes hold a value; FRM[0] and FRM[1] become the sync
marker, the bytes from 2 on the fields of the packet held, PKT.CSUM as it stands, FRMLEN 17 + LEN and STATUS OK; it leaves
PKT, PAY, SEQ and the bytes of FRM from 17 + LEN on unchanged. -/
def Obligations.EncodeMarshalsThePacket : Prop :=
  decodeOp 0b01#2 = .encode ∧
  ∀ (s : State) (p : List Byte), s.cur.PayloadIs p →
    ∃ t, exec .encode s = .next t ∧
      t.cur.frm.read 0 = some Config.sync0 ∧ t.cur.frm.read 1 = some Config.sync1 ∧ FrameAt t.cur.frm (s.cur.packet p) ∧
      t.cur.frmLen = 17 + s.cur.len.toNat ∧ t.cur.status = 0#2 ∧
      s.cur.SamePacketRegs t.cur ∧ SameBytes s.cur.pay t.cur.pay ∧ t.seq = s.seq ∧
      ∀ a, 17 + s.cur.len.toNat ≤ a → t.cur.frm.read a = s.cur.frm.read a

/-- 41_encode.md R110, the frame of ENCODE: it writes FRM[0 .. 17 + LEN), FRMLEN and STATUS, and leaves every packet register,
ACC, SEQ, every byte of PAY, every byte of FRM from 17 + LEN on and every other instance as they were.
(`held` records which registers hold a value: the model's, log 7.) -/
def Obligations.EncodeLeavesTheRest : Prop :=
  ∀ s t : State, exec .encode s = .next t →
    s.cur.SamePacketRegs t.cur ∧ t.cur.acc = s.cur.acc ∧ t.cur.answer = s.cur.answer ∧
    t.cur.held = { s.cur.held with frmLen := true, status := true } ∧ SameBytes s.cur.pay t.cur.pay ∧
    (∀ a, 17 + s.cur.len.toNat ≤ a → t.cur.frm.read a = s.cur.frm.read a) ∧ t.seq = s.seq ∧ s.SameAround t

/-- 30_encoding.md R75: the size of the frame is 17 + L, from 17 to 272. -/
def Obligations.FrameSizeIsSeventeenPlusLength : Prop :=
  ∀ s t : State, exec .encode s = .next t →
    t.cur.frmLen = 17 + s.cur.len.toNat ∧ 17 ≤ t.cur.frmLen ∧ t.cur.frmLen ≤ 272 ∧
    (t.cur.frmLen = 17 ↔ s.cur.len = 0#8) ∧ (t.cur.frmLen = 272 ↔ s.cur.len = 255#8)

/-! ### DECODE -/

/-- 42_decode.md R120: the three tests in order and what each leads to. A short header or a short body ends with STATUS 1, a
checksum that disagrees with STATUS 2, each with every packet register and every byte of PAY unchanged; otherwise PKT and
PAY[0 .. l) take the fields, STATUS is 0. FRM, FRMLEN and SEQ are never written. -/
def Obligations.DecodeFollowsItsSteps : Prop :=
  decodeOp 0b10#2 = .decode ∧
  (∀ s : State, s.cur.frmLen < 17 →
    ∃ t, exec .decode s = .next t ∧ t.cur.status = 1#2 ∧ s.cur.SamePacketRegs t.cur ∧ SameBytes s.cur.pay t.cur.pay) ∧
  (∀ (s : State) (l : Byte), 17 ≤ s.cur.frmLen → s.cur.frm.read 16 = some l → s.cur.frmLen < 17 + l.toNat →
    ∃ t, exec .decode s = .next t ∧ t.cur.status = 1#2 ∧ s.cur.SamePacketRegs t.cur ∧ SameBytes s.cur.pay t.cur.pay) ∧
  (∀ (s : State) (p : Packet), FrameAt s.cur.frm p → 17 + p.len.toNat ≤ s.cur.frmLen → ¬ p.Valid →
    ∃ t, exec .decode s = .next t ∧ t.cur.status = 2#2 ∧ s.cur.SamePacketRegs t.cur ∧ SameBytes s.cur.pay t.cur.pay) ∧
  (∀ (s : State) (p : Packet), FrameAt s.cur.frm p → 17 + p.len.toNat ≤ s.cur.frmLen → p.Valid →
    ∃ t, exec .decode s = .next t ∧ t.cur.status = 0#2 ∧ t.cur.origin = p.origin ∧ t.cur.dest = p.dest ∧
      t.cur.seqid = p.seqid ∧ t.cur.csum = p.csum ∧ t.cur.len = p.len ∧ t.cur.PayloadIs p.payload) ∧
  ∀ s t : State, exec .decode s = .next t →
    SameBytes s.cur.frm t.cur.frm ∧ t.cur.frmLen = s.cur.frmLen ∧ t.seq = s.seq

/-- 60_exceptions.md R141: a command ends with IncompleteFrame exactly when it is DECODE and FRMLEN is below 17, or at least
17 and below 17 + FRM[16]; and then the code is all that is recorded (which registers count as holding a value is the model's
bookkeeping, log 7, and left open here). -/
def Obligations.IncompleteFrameExactlyWhenTooShort : Prop :=
  (∀ (i : Instr) (s t : State), exec i s = .next t → t.cur.status = 1#2 →
    i = .decode ∧ (s.cur.frmLen < 17 ∨ 17 ≤ s.cur.frmLen ∧ ∃ l, s.cur.frm.read 16 = some l ∧ s.cur.frmLen < 17 + l.toNat)) ∧
  ∀ s : State,
    (s.cur.frmLen < 17 ∨ 17 ≤ s.cur.frmLen ∧ ∃ l, s.cur.frm.read 16 = some l ∧ s.cur.frmLen < 17 + l.toNat) →
    ∃ held, exec .decode s = .next { s with cur := { s.cur with status := 1#2, held := held } }

/-- 60_exceptions.md R142: a command ends with InvalidChecksum exactly when it is DECODE, FRM holds a whole frame and csum16 of
its fields differs from {FRM[15], FRM[14]}; and then STATUS and the hidden ACC are all that changes (the bookkeeping of log 7
aside). -/
def Obligations.InvalidChecksumExactlyWhenSumsDiffer : Prop :=
  (∀ (i : Instr) (s t : State), exec i s = .next t → t.cur.status = 2#2 →
    i = .decode ∧ ∃ p, FrameAt s.cur.frm p ∧ 17 + p.len.toNat ≤ s.cur.frmLen ∧ ¬ p.Valid) ∧
  ∀ (s : State) (p : Packet), FrameAt s.cur.frm p → 17 + p.len.toNat ≤ s.cur.frmLen → ¬ p.Valid →
    ∃ acc held, exec .decode s = .next { s with cur := { s.cur with status := 2#2, acc := acc, held := held } }

/-- 30_encoding.md R82: every content of FRM with every FRMLEN falls in exactly one of three classes, and the class decides
STATUS: too short, bad sum, a frame. -/
def Obligations.EveryFrameFallsInOneClass : Prop :=
  ∀ s : State, (∀ a, 2 ≤ a → a < s.cur.frmLen → s.cur.frm.read a ≠ none) →
    ∃ t, exec .decode s = .next t ∧ (t.cur.status = 0#2 ∨ t.cur.status = 1#2 ∨ t.cur.status = 2#2) ∧
      (t.cur.status = 1#2 ↔
        s.cur.frmLen < 17 ∨ ∃ l, s.cur.frm.read 16 = some l ∧ s.cur.frmLen < 17 + l.toNat) ∧
      (t.cur.status = 2#2 ↔ ∃ p, FrameAt s.cur.frm p ∧ 17 + p.len.toNat ≤ s.cur.frmLen ∧ ¬ p.Valid) ∧
      (t.cur.status = 0#2 ↔ ∃ p, FrameAt s.cur.frm p ∧ 17 + p.len.toNat ≤ s.cur.frmLen ∧ p.Valid)

/-- DECODE is refused exactly when a byte that it reads holds no value, the bytes being those of 42_decode.md R121, and the
refusal 10_state.md R35's and R125's (log 2). R121 lists FRMLEN first and R125 refuses DECODE where FRMLEN holds no value: that
it is not refused for that is the model's choice (log 1). Its outcome depends on no byte of FRM that it does not read: not on
FRM[0], FRM[1] or any byte at 17 + FRM[16] or above (R121). -/
def Obligations.DecodeReadsOnlyItsBytes : Prop :=
  (∀ s : State, (∃ r, exec .decode s = .refused r) ↔ ∃ a, s.cur.DecodeReads a ∧ s.cur.frm.read a = none) ∧
  ∀ (s : State) (m : Memory), (∀ a, s.cur.DecodeReads a → m.read a = s.cur.frm.read a) →
    exec .decode { s with cur := { s.cur with frm := m } } =
      mapNext (fun t => { t with cur := { t.cur with frm := m } }) (exec .decode s)

/-- 42_decode.md R123 and R122: of two frame buffers with the same bytes from 2 to 16 + FRM[16], whatever their sync bytes and
whatever follows the frame, DECODE of a long enough FRMLEN gives the same packet and STATUS. -/
def Obligations.DecodeIgnoresMarkerAndTrailingBytes : Prop :=
  ∀ (s : State) (l : Byte) (m : Memory) (n : Nat), s.cur.frm.read 16 = some l → 17 + l.toNat ≤ s.cur.frmLen →
    17 + l.toNat ≤ n → (∀ a, 2 ≤ a → a < 17 + l.toNat → m.read a = s.cur.frm.read a) →
    exec .decode { s with cur := { s.cur with frm := m, frmLen := n } } =
      mapNext (fun t => { t with cur := { t.cur with frm := m, frmLen := n } }) (exec .decode s)

/-- 42_decode.md R120, R124, the frame of DECODE: FRM, FRMLEN, SEQ and every other instance are unchanged; if STATUS is not OK
after it, so are the packet registers and every byte of PAY; if it is, the bytes of PAY from the decoded length on are.
(`held` records which registers hold a value: the model's, log 7.) -/
def Obligations.DecodeLeavesTheRest : Prop :=
  ∀ s t : State, exec .decode s = .next t →
    SameBytes s.cur.frm t.cur.frm ∧ t.cur.frmLen = s.cur.frmLen ∧ t.cur.answer = s.cur.answer ∧ t.seq = s.seq ∧
    s.SameAround t ∧
    (t.cur.status ≠ 0#2 → s.cur.SamePacketRegs t.cur ∧ SameBytes s.cur.pay t.cur.pay ∧
      t.cur.held = { s.cur.held with status := true }) ∧
    (t.cur.status = 0#2 → (∀ a, t.cur.len.toNat ≤ a → t.cur.pay.read a = s.cur.pay.read a) ∧
      t.cur.held = { s.cur.held with origin := true, dest := true, seqid := true, csum := true, len := true, status := true })

/-- 40_checksum.md R104, law L4: in a frame that DECODE accepts, change one payload byte to a different value: DECODE answers
InvalidChecksum. -/
def Obligations.TamperedPayloadByteIsRejected : Prop :=
  ∀ (s : State) (p : Packet) (i : Nat) (b : Byte), FrameAt s.cur.frm p → 17 + p.len.toNat ≤ s.cur.frmLen → p.Valid →
    i < p.payload.length → p.payload[i]? ≠ some b →
    ∃ t, exec .decode { s with cur := { s.cur with frm := s.cur.frm.write (17 + i) b } } = .next t ∧ t.cur.status = 2#2

/-- 40_checksum.md R104, the rows about header bytes: in a frame that DECODE accepts, changing byte 0 or 1 of origin, destination
or sequence_id, or a checksum byte, to a different value gives InvalidChecksum; changing byte 2 or 3 of one of the words, or a
sync byte, to any value leaves STATUS OK. -/
def Obligations.TamperedHeaderBytesAreClassified : Prop :=
  ∀ (s : State) (p : Packet) (a : Nat) (b : Byte), FrameAt s.cur.frm p → 17 + p.len.toNat ≤ s.cur.frmLen → p.Valid →
    (a ∈ [2, 3, 6, 7, 10, 11, 14, 15] → s.cur.frm.read a ≠ some b →
      ∃ t, exec .decode { s with cur := { s.cur with frm := s.cur.frm.write a b } } = .next t ∧ t.cur.status = 2#2) ∧
    (a ∈ [0, 1, 4, 5, 8, 9, 12, 13] →
      ∃ t, exec .decode { s with cur := { s.cur with frm := s.cur.frm.write a b } } = .next t ∧ t.cur.status = 0#2)

/-- 40_checksum.md R104, 42_decode.md R125: a frame that DECODE accepts is accepted with its payload in any other order, and is
delivered in that order. -/
def Obligations.ReorderedPayloadIsAccepted : Prop :=
  ∀ (s : State) (p : Packet) (q : List Byte) (m : Memory), p.Valid → p.payload.Perm q →
    FrameAt m { p with payload := q } → 17 + p.len.toNat ≤ s.cur.frmLen →
    ∃ t, exec .decode { s with cur := { s.cur with frm := m } } = .next t ∧ t.cur.status = 0#2 ∧ t.cur.PayloadIs q

/-! ### NEW and the sequence counter -/

/-- 43_new.md R130: NEW completes from every state whose payload bytes hold a value; SEQ goes up by one modulo 2^32, PKT.ORIGIN
becomes 0, PKT.SEQID the new SEQ, PKT.CSUM the checksum of the packet so made, STATUS OK; PKT.DEST, PKT.LEN, PAY, FRM and
FRMLEN are unchanged. -/
def Obligations.NewBuildsAnOutboundPacket : Prop :=
  decodeOp 0b11#2 = .new ∧
  ∀ (s : State) (p : List Byte), s.cur.PayloadIs p →
    ∃ t, exec .new s = .next t ∧ t.seq.toNat = (s.seq.toNat + 1) % 4294967296 ∧ t.cur.origin = 0#32 ∧
      t.cur.seqid = t.seq ∧ t.cur.csum.toNat = exactSum 0#32 s.cur.dest t.seq s.cur.len p % 65536 ∧
      t.cur.status = 0#2 ∧ t.cur.dest = s.cur.dest ∧ t.cur.len = s.cur.len ∧ SameBytes s.cur.pay t.cur.pay ∧
      SameBytes s.cur.frm t.cur.frm ∧ t.cur.frmLen = s.cur.frmLen ∧ (t.cur.packet p).Valid

/-- 43_new.md R130, the frame of NEW: it writes SEQ, PKT.ORIGIN, PKT.SEQID, PKT.CSUM, STATUS and the hidden ACC, and leaves the
rest of the instance and every other instance as they were.
(`held` records which registers hold a value: the model's, log 7.) -/
def Obligations.NewLeavesTheRest : Prop :=
  ∀ s t : State, exec .new s = .next t →
    t.cur.dest = s.cur.dest ∧ t.cur.len = s.cur.len ∧ t.cur.frmLen = s.cur.frmLen ∧ t.cur.answer = s.cur.answer ∧
    t.cur.held = { s.cur.held with origin := true, seqid := true, csum := true, status := true } ∧
    SameBytes s.cur.pay t.cur.pay ∧ SameBytes s.cur.frm t.cur.frm ∧ s.SameAround t

/-- 43_new.md R133: at 0xFFFFFFFF SEQ wraps to 0, the packet carries 0 and STATUS is OK; the next NEW carries 1. -/
def Obligations.SeqWrapsToZero : Prop :=
  ∀ (s : State) (p : List Byte), s.cur.PayloadIs p → s.seq = 0xFFFFFFFF#32 →
    ∃ t u, exec .new s = .next t ∧ t.seq = 0#32 ∧ t.cur.seqid = 0#32 ∧ t.cur.status = 0#2 ∧
      exec .new t = .next u ∧ u.seq = 1#32 ∧ u.cur.seqid = 1#32 ∧ u.cur.status = 0#2

/-- 10_state.md R20, R21, law L9: no host action but the issue of NEW reads or writes SEQ: whatever SEQ holds, what happens is
the same, and SEQ still holds it after. -/
def Obligations.OnlyNewReadsOrWritesSeq : Prop :=
  ∀ (a : HostAction) (s : State) (v : U32), a ≠ .issue 0b11#2 →
    perform a (s.setSeq v) = mapNext (fun t => t.setSeq v) (perform a s)

/-- 10_state.md R20, law L7: along every run of n steps from every state, SEQ moves by the number of NEW commands among the
events performed, modulo 2^32. -/
def Obligations.SeqCountsNewCommands : Prop :=
  ∀ (n : Nat) (s t : State), run n s = .next t →
    t.seq.toNat = (s.seq.toNat + newCount (s.input.take n)) % 4294967296

/-- 20_memory.md R60 (c), 43_new.md R132: two NEW commands with fewer than 2^32 - 1 others between them, on any instances and in
any order, carry different ids; and if SEQ does not wrap between them, the later id is the greater. -/
def Obligations.SequenceIdsDoNotRepeat : Prop :=
  ∀ (n k k' : Nat) (es es' : List Event) (s t u v : State),
    s.input = ⟨k, .issue 0b11#2⟩ :: es → step s = .next t → run n t = .next u →
    u.input = ⟨k', .issue 0b11#2⟩ :: es' → step u = .next v →
    (newCount (es.take n) < 4294967295 → v.cur.seqid ≠ t.cur.seqid) ∧
    (t.seq.toNat + newCount (es.take n) + 1 < 4294967296 → t.cur.seqid.toNat < v.cur.seqid.toNat)

/-! ### Commands together -/

/-- 42_decode.md R126: ENCODE then DECODE of a packet whose checksum field satisfies the invariant ends with STATUS OK, and with
the same packet; of one whose field does not, with InvalidChecksum, and again with the same packet. -/
def Obligations.DecodeUndoesEncode : Prop :=
  ∀ (s : State) (p : List Byte), s.cur.PayloadIs p →
    ∃ t u, exec .encode s = .next t ∧ exec .decode t = .next u ∧ t.cur.frmLen = 17 + s.cur.len.toNat ∧
      ((s.cur.packet p).Valid → u.cur.status = 0#2) ∧ (¬ (s.cur.packet p).Valid → u.cur.status = 2#2) ∧
      s.cur.SamePacketRegs u.cur ∧ u.cur.PayloadIs p ∧ SameBytes s.cur.pay u.cur.pay

/-- Properties S1 and S5, law L8: what NEW and ENCODE send, DECODE in an instance that holds the same frame, whatever else it
holds, delivers: origin 0, the destination and payload given, the id NEW allocated, STATUS OK. -/
def Obligations.SentPacketIsDelivered : Prop :=
  ∀ (s r : State) (p : List Byte), s.cur.PayloadIs p →
    ∃ t u, exec .new s = .next t ∧ exec .encode t = .next u ∧
      ∃ v, exec .decode { r with cur := { r.cur with frm := u.cur.frm, frmLen := u.cur.frmLen } } = .next v ∧
        v.cur.status = 0#2 ∧ v.cur.origin = 0#32 ∧ v.cur.dest = s.cur.dest ∧ v.cur.seqid = t.seq ∧
        v.cur.len = s.cur.len ∧ v.cur.PayloadIs p

/-- 40_checksum.md R101, 41_encode.md R112, 42_decode.md R125: CSUM, ENCODE and DECODE are idempotent. -/
def Obligations.RepeatingACommandChangesNothing : Prop :=
  ∀ (i : Instr) (s t : State), i = .csum ∨ i = .encode ∨ i = .decode → exec i s = .next t → exec i t = .next t

/-- 10_state.md R32, 40_checksum.md R100: CSUM, NEW and a DECODE of a whole frame each leave in the accumulator the 32-bit sum
they formed: of the packet CSUM or NEW leaves in PKT, and of the fields DECODE reads, whether it then ends with OK or with
InvalidChecksum, which the low half of the sum decides. ENCODE, a DECODE that ends with IncompleteFrame and every host access
form no sum and leave it. What it held before has no effect on any command. (That ACC keeps the last sum is the model's
reading, log 8.) -/
def Obligations.AccumulatorHoldsTheSum : Prop :=
  (∀ (i : Instr) (s : State) (p : List Byte), i = .csum ∨ i = .new → s.cur.PayloadIs p →
    ∃ t, exec i s = .next t ∧ t.cur.acc.toNat = t.cur.exactSum p % 4294967296 ∧
      t.cur.csum = t.cur.acc.extractLsb' 0 16) ∧
  (∀ (s : State) (p : Packet), FrameAt s.cur.frm p → 17 + p.len.toNat ≤ s.cur.frmLen →
    ∃ t, exec .decode s = .next t ∧
      t.cur.acc.toNat = exactSum p.origin p.dest p.seqid p.len p.payload % 4294967296 ∧
      (t.cur.status = 0#2 ↔ t.cur.acc.extractLsb' 0 16 = p.csum) ∧
      (t.cur.status = 2#2 ↔ t.cur.acc.extractLsb' 0 16 ≠ p.csum)) ∧
  (∀ (i : Instr) (s t : State), exec i s = .next t → i = .encode ∨ i = .decode ∧ t.cur.status = 1#2 →
    t.cur.acc = s.cur.acc) ∧
  (∀ (a : HostAction) (s t : State), (∀ op, a ≠ .issue op) → perform a s = .next t → t.cur.acc = s.cur.acc) ∧
  ∀ (i : Instr) (s : State) (v : U32),
    mapNext (fun t => { t with cur := { t.cur with acc := 0#32 } }) (exec i { s with cur := { s.cur with acc := v } }) =
      mapNext (fun t => { t with cur := { t.cur with acc := 0#32 } }) (exec i s)

/-! ### Errors and stops -/

/-- 10_state.md R29, 60_exceptions.md R148: every command overwrites STATUS and none reads it; CSUM, ENCODE and NEW leave it OK,
and code 3 is never produced.
(`held` records which registers hold a value: the model's, log 7.) -/
def Obligations.StatusIsOverwrittenAndNeverRead : Prop :=
  (∀ (i : Instr) (s : State) (v : BitVec 2), exec i { s with cur := { s.cur with status := v } } = exec i s) ∧
  ∀ (i : Instr) (s t : State), exec i s = .next t →
    t.cur.status ≠ 3#2 ∧ t.cur.held.status = true ∧ (i = .csum ∨ i = .encode ∨ i = .new → t.cur.status = 0#2)

/-- 60_exceptions.md R147: after a command that ends in an error the state is the one before it with STATUS replaced; only the
hidden ACC may differ besides (log 8).
(`held` records which registers hold a value: the model's, log 7.) -/
def Obligations.AnErrorReplacesOnlyStatus : Prop :=
  ∀ (i : Instr) (s t : State), exec i s = .next t → t.cur.status ≠ 0#2 →
    t = { s with cur := { s.cur with status := t.cur.status, acc := t.cur.acc, held := { s.cur.held with status := true } } }

/-- For the bytes, 10_state.md R35 and 60_exceptions.md R144: CSUM, ENCODE and NEW stop exactly when a payload byte holds no
value, by that refusal (log 2). That no command stops in any other way is the model's choice: R35 also refuses a command that
reads a register holding no value, which in the model reads as what State.reset puts there (log 1). -/
def Obligations.CommandsStopOnlyOnUnwrittenBytes : Prop :=
  (∀ (i : Instr) (s : State), i = .csum ∨ i = .encode ∨ i = .new →
    (exec i s = .refused (.noValue .pay) ↔ ∃ a < s.cur.len.toNat, s.cur.pay.read a = none)) ∧
  ∀ (i : Instr) (s : State), (∃ t, exec i s = .next t) ∨ ∃ buf, exec i s = .refused (.noValue buf)

/-- 10_state.md R35, "hardware that came up with zeros, or with anything else, does nothing a claim proved under this rule
forbids": two machines that agree on everything that holds a value, and whose next event reads only registers that do, step
alike. So no value the model chose at reset (log 1) shows in a run that keeps 70_reset_and_hazards.md R171. -/
def Obligations.ResetValuesAreUnobservable : Prop :=
  ∀ s t : State, s.AgreeHeld t → s.readsHeld = true → AgreeOutcome (step s) (step t)

/-! ### Hosts and instances -/

/-- 10_state.md R24, R27: a host writes each packet register and FRMLEN, and reads back what it wrote; nothing but that register
changes. R29: a host reads STATUS. That a read delivers its value into `answer` is the model's choice (log 6), and so is that a
read of STATUS delivers it also where STATUS was never written, where 10_state.md R35 refuses the read (log 1). That a write
marks the register in `held` is the model's record (log 7). -/
def Obligations.HostWritesAndReadsRegisters : Prop :=
  ∀ s : State,
    (∀ v, ∃ t, perform (.write (.origin v)) s = .next t ∧
      t = { s with cur := { s.cur with origin := v, held := { s.cur.held with origin := true } } } ∧
      perform (.read .origin) t = .next { t with cur := { t.cur with answer := some v.toNat } }) ∧
    (∀ v, ∃ t, perform (.write (.dest v)) s = .next t ∧
      t = { s with cur := { s.cur with dest := v, held := { s.cur.held with dest := true } } } ∧
      perform (.read .dest) t = .next { t with cur := { t.cur with answer := some v.toNat } }) ∧
    (∀ v, ∃ t, perform (.write (.seqid v)) s = .next t ∧
      t = { s with cur := { s.cur with seqid := v, held := { s.cur.held with seqid := true } } } ∧
      perform (.read .seqid) t = .next { t with cur := { t.cur with answer := some v.toNat } }) ∧
    (∀ v, ∃ t, perform (.write (.csum v)) s = .next t ∧
      t = { s with cur := { s.cur with csum := v, held := { s.cur.held with csum := true } } } ∧
      perform (.read .csum) t = .next { t with cur := { t.cur with answer := some v.toNat } }) ∧
    (∀ v, ∃ t, perform (.write (.len v)) s = .next t ∧
      t = { s with cur := { s.cur with len := v, held := { s.cur.held with len := true } } } ∧
      perform (.read .len) t = .next { t with cur := { t.cur with answer := some v.toNat } }) ∧
    (∀ n ≤ s.frmCap, ∃ t, perform (.write (.frmLen n)) s = .next t ∧
      t = { s with cur := { s.cur with frmLen := n, held := { s.cur.held with frmLen := true } } } ∧
      perform (.read .frmLen) t = .next { t with cur := { t.cur with answer := some n } }) ∧
    perform (.read .status) s = .next { s with cur := { s.cur with answer := some s.cur.status.toNat } }

/-- 10_state.md R25 to R27, R35: where a host access stops, and by what name: a byte that does not exist, a byte that holds no
value, a FRMLEN above FRM_CAP (the names are the model's, log 2 and log 6). -/
def Obligations.HostAccessesStopByName : Prop :=
  ∀ s : State,
    (∀ i b, 255 ≤ i → perform (.write (.pay i b)) s = .fault (.noSuchByte .pay i)) ∧
    (∀ i b, s.frmCap ≤ i → perform (.write (.frm i b)) s = .fault (.noSuchByte .frm i)) ∧
    (∀ i, 255 ≤ i → perform (.read (.pay i)) s = .fault (.noSuchByte .pay i)) ∧
    (∀ i, s.frmCap ≤ i → perform (.read (.frm i)) s = .fault (.noSuchByte .frm i)) ∧
    (∀ i < 255, s.cur.pay.read i = none → perform (.read (.pay i)) s = .refused (.noValue .pay)) ∧
    (∀ i < s.frmCap, s.cur.frm.read i = none → perform (.read (.frm i)) s = .refused (.noValue .frm)) ∧
    ∀ n, s.frmCap < n → perform (.write (.frmLen n)) s = .refused (.frmLenAboveCap n)

/-- 30_encoding.md R86, LOADPAY: from every state, the host's accesses leave PAY[0 .. n) with the bytes and PKT.LEN with n, and
nothing else changed; 70_reset_and_hazards.md R174: a payload of more than 255 bytes cannot be presented.
(`held` records which registers hold a value: the model's, log 7.) -/
def Obligations.LoadPayPresentsThePayload : Prop :=
  (∀ (bs : List Byte) (as : List HostAction) (es : List Event) (s : State), loadPay bs = some as →
    s.input = as.map (fun a => ⟨s.before.length, a⟩) ++ es →
    ∃ t, run as.length s = .next t ∧ t.cur.PayloadIs bs ∧
      (∀ a, bs.length ≤ a → t.cur.pay.read a = s.cur.pay.read a) ∧
      t = { s with input := es, cur := { s.cur with pay := t.cur.pay, len := BitVec.ofNat 8 bs.length, held := { s.cur.held with len := true } } }) ∧
  ∀ bs : List Byte, loadPay bs = none ↔ 255 < bs.length

/-- 30_encoding.md R86, LOADFRM: the host's accesses leave FRM[0 .. n) with the bytes and FRMLEN with n, for every n up to
FRM_CAP, and nothing else changed.
(`held` records which registers hold a value: the model's, log 7.) -/
def Obligations.LoadFrmPresentsTheFrame : Prop :=
  ∀ (bs : List Byte) (es : List Event) (s : State), bs.length ≤ s.frmCap →
    s.input = (loadFrm bs).map (fun a => ⟨s.before.length, a⟩) ++ es →
    ∃ t, run (loadFrm bs).length s = .next t ∧ (∀ i < bs.length, t.cur.frm.read i = bs[i]?) ∧
      (∀ a, bs.length ≤ a → t.cur.frm.read a = s.cur.frm.read a) ∧
      t = { s with input := es, cur := { s.cur with frm := t.cur.frm, frmLen := bs.length, held := { s.cur.held with frmLen := true } } }

/-- 10_state.md R36, 60_exceptions.md R152, R153: a step performs the oldest event on the instance it names: every other instance
is unchanged, and so are their number and FRM_CAP. -/
def Obligations.OtherInstancesAreUntouched : Prop :=
  ∀ (s t : State) (e : Event) (es : List Event), s.input = e :: es → step s = .next t →
    t.input = es ∧ t.before.length = e.inst ∧ t.insts.length = s.insts.length ∧ t.frmCap = s.frmCap ∧
    ∀ k, k ≠ e.inst → t.insts[k]? = s.insts[k]?

/-- 60_exceptions.md R153: what a command does to an instance depends on that instance alone, but for SEQ in NEW. -/
def Obligations.CommandsDependOnTheirInstanceAlone : Prop :=
  ∀ (i : Instr) (s s' t : State), s'.cur = s.cur → (i = .new → s'.seq = s.seq) → exec i s = .next t →
    ∃ t', exec i s' = .next t' ∧ t'.cur = t.cur
end

