-- ==== Sys2Proof/Laws/State.lean ====
section
/-! SUPPORT. One lemma per field per update, each true by unfolding the update, so that no later proof unfolds a record
update. -/

namespace Sys2Proof.Machine

/-! ### Register and buffer writes of an instance -/

@[simp] theorem Codec.setOrigin_origin (c : Codec) (v : U32) : (c.setOrigin v).origin = v := rfl
@[simp] theorem Codec.setOrigin_dest (c : Codec) (v : U32) : (c.setOrigin v).dest = c.dest := rfl
@[simp] theorem Codec.setOrigin_seqid (c : Codec) (v : U32) : (c.setOrigin v).seqid = c.seqid := rfl
@[simp] theorem Codec.setOrigin_csum (c : Codec) (v : U32) : (c.setOrigin v).csum = c.csum := rfl
@[simp] theorem Codec.setOrigin_len (c : Codec) (v : U32) : (c.setOrigin v).len = c.len := rfl
@[simp] theorem Codec.setOrigin_pay (c : Codec) (v : U32) : (c.setOrigin v).pay = c.pay := rfl
@[simp] theorem Codec.setOrigin_frm (c : Codec) (v : U32) : (c.setOrigin v).frm = c.frm := rfl
@[simp] theorem Codec.setOrigin_frmLen (c : Codec) (v : U32) : (c.setOrigin v).frmLen = c.frmLen := rfl
@[simp] theorem Codec.setOrigin_status (c : Codec) (v : U32) : (c.setOrigin v).status = c.status := rfl
@[simp] theorem Codec.setOrigin_acc (c : Codec) (v : U32) : (c.setOrigin v).acc = c.acc := rfl
@[simp] theorem Codec.setOrigin_held (c : Codec) (v : U32) : (c.setOrigin v).held = { c.held with origin := true } := rfl
@[simp] theorem Codec.setOrigin_answer (c : Codec) (v : U32) : (c.setOrigin v).answer = c.answer := rfl

@[simp] theorem Codec.setDest_origin (c : Codec) (v : U32) : (c.setDest v).origin = c.origin := rfl
@[simp] theorem Codec.setDest_dest (c : Codec) (v : U32) : (c.setDest v).dest = v := rfl
@[simp] theorem Codec.setDest_seqid (c : Codec) (v : U32) : (c.setDest v).seqid = c.seqid := rfl
@[simp] theorem Codec.setDest_csum (c : Codec) (v : U32) : (c.setDest v).csum = c.csum := rfl
@[simp] theorem Codec.setDest_len (c : Codec) (v : U32) : (c.setDest v).len = c.len := rfl
@[simp] theorem Codec.setDest_pay (c : Codec) (v : U32) : (c.setDest v).pay = c.pay := rfl
@[simp] theorem Codec.setDest_frm (c : Codec) (v : U32) : (c.setDest v).frm = c.frm := rfl
@[simp] theorem Codec.setDest_frmLen (c : Codec) (v : U32) : (c.setDest v).frmLen = c.frmLen := rfl
@[simp] theorem Codec.setDest_status (c : Codec) (v : U32) : (c.setDest v).status = c.status := rfl
@[simp] theorem Codec.setDest_acc (c : Codec) (v : U32) : (c.setDest v).acc = c.acc := rfl
@[simp] theorem Codec.setDest_held (c : Codec) (v : U32) : (c.setDest v).held = { c.held with dest := true } := rfl
@[simp] theorem Codec.setDest_answer (c : Codec) (v : U32) : (c.setDest v).answer = c.answer := rfl

@[simp] theorem Codec.setSeqid_origin (c : Codec) (v : U32) : (c.setSeqid v).origin = c.origin := rfl
@[simp] theorem Codec.setSeqid_dest (c : Codec) (v : U32) : (c.setSeqid v).dest = c.dest := rfl
@[simp] theorem Codec.setSeqid_seqid (c : Codec) (v : U32) : (c.setSeqid v).seqid = v := rfl
@[simp] theorem Codec.setSeqid_csum (c : Codec) (v : U32) : (c.setSeqid v).csum = c.csum := rfl
@[simp] theorem Codec.setSeqid_len (c : Codec) (v : U32) : (c.setSeqid v).len = c.len := rfl
@[simp] theorem Codec.setSeqid_pay (c : Codec) (v : U32) : (c.setSeqid v).pay = c.pay := rfl
@[simp] theorem Codec.setSeqid_frm (c : Codec) (v : U32) : (c.setSeqid v).frm = c.frm := rfl
@[simp] theorem Codec.setSeqid_frmLen (c : Codec) (v : U32) : (c.setSeqid v).frmLen = c.frmLen := rfl
@[simp] theorem Codec.setSeqid_status (c : Codec) (v : U32) : (c.setSeqid v).status = c.status := rfl
@[simp] theorem Codec.setSeqid_acc (c : Codec) (v : U32) : (c.setSeqid v).acc = c.acc := rfl
@[simp] theorem Codec.setSeqid_held (c : Codec) (v : U32) : (c.setSeqid v).held = { c.held with seqid := true } := rfl
@[simp] theorem Codec.setSeqid_answer (c : Codec) (v : U32) : (c.setSeqid v).answer = c.answer := rfl

@[simp] theorem Codec.setCsum_origin (c : Codec) (v : U16) : (c.setCsum v).origin = c.origin := rfl
@[simp] theorem Codec.setCsum_dest (c : Codec) (v : U16) : (c.setCsum v).dest = c.dest := rfl
@[simp] theorem Codec.setCsum_seqid (c : Codec) (v : U16) : (c.setCsum v).seqid = c.seqid := rfl
@[simp] theorem Codec.setCsum_csum (c : Codec) (v : U16) : (c.setCsum v).csum = v := rfl
@[simp] theorem Codec.setCsum_len (c : Codec) (v : U16) : (c.setCsum v).len = c.len := rfl
@[simp] theorem Codec.setCsum_pay (c : Codec) (v : U16) : (c.setCsum v).pay = c.pay := rfl
@[simp] theorem Codec.setCsum_frm (c : Codec) (v : U16) : (c.setCsum v).frm = c.frm := rfl
@[simp] theorem Codec.setCsum_frmLen (c : Codec) (v : U16) : (c.setCsum v).frmLen = c.frmLen := rfl
@[simp] theorem Codec.setCsum_status (c : Codec) (v : U16) : (c.setCsum v).status = c.status := rfl
@[simp] theorem Codec.setCsum_acc (c : Codec) (v : U16) : (c.setCsum v).acc = c.acc := rfl
@[simp] theorem Codec.setCsum_held (c : Codec) (v : U16) : (c.setCsum v).held = { c.held with csum := true } := rfl
@[simp] theorem Codec.setCsum_answer (c : Codec) (v : U16) : (c.setCsum v).answer = c.answer := rfl

@[simp] theorem Codec.setLen_origin (c : Codec) (v : Byte) : (c.setLen v).origin = c.origin := rfl
@[simp] theorem Codec.setLen_dest (c : Codec) (v : Byte) : (c.setLen v).dest = c.dest := rfl
@[simp] theorem Codec.setLen_seqid (c : Codec) (v : Byte) : (c.setLen v).seqid = c.seqid := rfl
@[simp] theorem Codec.setLen_csum (c : Codec) (v : Byte) : (c.setLen v).csum = c.csum := rfl
@[simp] theorem Codec.setLen_len (c : Codec) (v : Byte) : (c.setLen v).len = v := rfl
@[simp] theorem Codec.setLen_pay (c : Codec) (v : Byte) : (c.setLen v).pay = c.pay := rfl
@[simp] theorem Codec.setLen_frm (c : Codec) (v : Byte) : (c.setLen v).frm = c.frm := rfl
@[simp] theorem Codec.setLen_frmLen (c : Codec) (v : Byte) : (c.setLen v).frmLen = c.frmLen := rfl
@[simp] theorem Codec.setLen_status (c : Codec) (v : Byte) : (c.setLen v).status = c.status := rfl
@[simp] theorem Codec.setLen_acc (c : Codec) (v : Byte) : (c.setLen v).acc = c.acc := rfl
@[simp] theorem Codec.setLen_held (c : Codec) (v : Byte) : (c.setLen v).held = { c.held with len := true } := rfl
@[simp] theorem Codec.setLen_answer (c : Codec) (v : Byte) : (c.setLen v).answer = c.answer := rfl

@[simp] theorem Codec.setFrmLen_origin (c : Codec) (v : Nat) : (c.setFrmLen v).origin = c.origin := rfl
@[simp] theorem Codec.setFrmLen_dest (c : Codec) (v : Nat) : (c.setFrmLen v).dest = c.dest := rfl
@[simp] theorem Codec.setFrmLen_seqid (c : Codec) (v : Nat) : (c.setFrmLen v).seqid = c.seqid := rfl
@[simp] theorem Codec.setFrmLen_csum (c : Codec) (v : Nat) : (c.setFrmLen v).csum = c.csum := rfl
@[simp] theorem Codec.setFrmLen_len (c : Codec) (v : Nat) : (c.setFrmLen v).len = c.len := rfl
@[simp] theorem Codec.setFrmLen_pay (c : Codec) (v : Nat) : (c.setFrmLen v).pay = c.pay := rfl
@[simp] theorem Codec.setFrmLen_frm (c : Codec) (v : Nat) : (c.setFrmLen v).frm = c.frm := rfl
@[simp] theorem Codec.setFrmLen_frmLen (c : Codec) (v : Nat) : (c.setFrmLen v).frmLen = v := rfl
@[simp] theorem Codec.setFrmLen_status (c : Codec) (v : Nat) : (c.setFrmLen v).status = c.status := rfl
@[simp] theorem Codec.setFrmLen_acc (c : Codec) (v : Nat) : (c.setFrmLen v).acc = c.acc := rfl
@[simp] theorem Codec.setFrmLen_held (c : Codec) (v : Nat) : (c.setFrmLen v).held = { c.held with frmLen := true } := rfl
@[simp] theorem Codec.setFrmLen_answer (c : Codec) (v : Nat) : (c.setFrmLen v).answer = c.answer := rfl

@[simp] theorem Codec.setStatus_origin (c : Codec) (v : BitVec 2) : (c.setStatus v).origin = c.origin := rfl
@[simp] theorem Codec.setStatus_dest (c : Codec) (v : BitVec 2) : (c.setStatus v).dest = c.dest := rfl
@[simp] theorem Codec.setStatus_seqid (c : Codec) (v : BitVec 2) : (c.setStatus v).seqid = c.seqid := rfl
@[simp] theorem Codec.setStatus_csum (c : Codec) (v : BitVec 2) : (c.setStatus v).csum = c.csum := rfl
@[simp] theorem Codec.setStatus_len (c : Codec) (v : BitVec 2) : (c.setStatus v).len = c.len := rfl
@[simp] theorem Codec.setStatus_pay (c : Codec) (v : BitVec 2) : (c.setStatus v).pay = c.pay := rfl
@[simp] theorem Codec.setStatus_frm (c : Codec) (v : BitVec 2) : (c.setStatus v).frm = c.frm := rfl
@[simp] theorem Codec.setStatus_frmLen (c : Codec) (v : BitVec 2) : (c.setStatus v).frmLen = c.frmLen := rfl
@[simp] theorem Codec.setStatus_status (c : Codec) (v : BitVec 2) : (c.setStatus v).status = v := rfl
@[simp] theorem Codec.setStatus_acc (c : Codec) (v : BitVec 2) : (c.setStatus v).acc = c.acc := rfl
@[simp] theorem Codec.setStatus_held (c : Codec) (v : BitVec 2) : (c.setStatus v).held = { c.held with status := true } := rfl
@[simp] theorem Codec.setStatus_answer (c : Codec) (v : BitVec 2) : (c.setStatus v).answer = c.answer := rfl

@[simp] theorem Codec.setAcc_origin (c : Codec) (v : U32) : (c.setAcc v).origin = c.origin := rfl
@[simp] theorem Codec.setAcc_dest (c : Codec) (v : U32) : (c.setAcc v).dest = c.dest := rfl
@[simp] theorem Codec.setAcc_seqid (c : Codec) (v : U32) : (c.setAcc v).seqid = c.seqid := rfl
@[simp] theorem Codec.setAcc_csum (c : Codec) (v : U32) : (c.setAcc v).csum = c.csum := rfl
@[simp] theorem Codec.setAcc_len (c : Codec) (v : U32) : (c.setAcc v).len = c.len := rfl
@[simp] theorem Codec.setAcc_pay (c : Codec) (v : U32) : (c.setAcc v).pay = c.pay := rfl
@[simp] theorem Codec.setAcc_frm (c : Codec) (v : U32) : (c.setAcc v).frm = c.frm := rfl
@[simp] theorem Codec.setAcc_frmLen (c : Codec) (v : U32) : (c.setAcc v).frmLen = c.frmLen := rfl
@[simp] theorem Codec.setAcc_status (c : Codec) (v : U32) : (c.setAcc v).status = c.status := rfl
@[simp] theorem Codec.setAcc_acc (c : Codec) (v : U32) : (c.setAcc v).acc = v := rfl
@[simp] theorem Codec.setAcc_held (c : Codec) (v : U32) : (c.setAcc v).held = c.held := rfl
@[simp] theorem Codec.setAcc_answer (c : Codec) (v : U32) : (c.setAcc v).answer = c.answer := rfl

@[simp] theorem Codec.setPay_origin (c : Codec) (v : Memory) : (c.setPay v).origin = c.origin := rfl
@[simp] theorem Codec.setPay_dest (c : Codec) (v : Memory) : (c.setPay v).dest = c.dest := rfl
@[simp] theorem Codec.setPay_seqid (c : Codec) (v : Memory) : (c.setPay v).seqid = c.seqid := rfl
@[simp] theorem Codec.setPay_csum (c : Codec) (v : Memory) : (c.setPay v).csum = c.csum := rfl
@[simp] theorem Codec.setPay_len (c : Codec) (v : Memory) : (c.setPay v).len = c.len := rfl
@[simp] theorem Codec.setPay_pay (c : Codec) (v : Memory) : (c.setPay v).pay = v := rfl
@[simp] theorem Codec.setPay_frm (c : Codec) (v : Memory) : (c.setPay v).frm = c.frm := rfl
@[simp] theorem Codec.setPay_frmLen (c : Codec) (v : Memory) : (c.setPay v).frmLen = c.frmLen := rfl
@[simp] theorem Codec.setPay_status (c : Codec) (v : Memory) : (c.setPay v).status = c.status := rfl
@[simp] theorem Codec.setPay_acc (c : Codec) (v : Memory) : (c.setPay v).acc = c.acc := rfl
@[simp] theorem Codec.setPay_held (c : Codec) (v : Memory) : (c.setPay v).held = c.held := rfl
@[simp] theorem Codec.setPay_answer (c : Codec) (v : Memory) : (c.setPay v).answer = c.answer := rfl

@[simp] theorem Codec.setFrm_origin (c : Codec) (v : Memory) : (c.setFrm v).origin = c.origin := rfl
@[simp] theorem Codec.setFrm_dest (c : Codec) (v : Memory) : (c.setFrm v).dest = c.dest := rfl
@[simp] theorem Codec.setFrm_seqid (c : Codec) (v : Memory) : (c.setFrm v).seqid = c.seqid := rfl
@[simp] theorem Codec.setFrm_csum (c : Codec) (v : Memory) : (c.setFrm v).csum = c.csum := rfl
@[simp] theorem Codec.setFrm_len (c : Codec) (v : Memory) : (c.setFrm v).len = c.len := rfl
@[simp] theorem Codec.setFrm_pay (c : Codec) (v : Memory) : (c.setFrm v).pay = c.pay := rfl
@[simp] theorem Codec.setFrm_frm (c : Codec) (v : Memory) : (c.setFrm v).frm = v := rfl
@[simp] theorem Codec.setFrm_frmLen (c : Codec) (v : Memory) : (c.setFrm v).frmLen = c.frmLen := rfl
@[simp] theorem Codec.setFrm_status (c : Codec) (v : Memory) : (c.setFrm v).status = c.status := rfl
@[simp] theorem Codec.setFrm_acc (c : Codec) (v : Memory) : (c.setFrm v).acc = c.acc := rfl
@[simp] theorem Codec.setFrm_held (c : Codec) (v : Memory) : (c.setFrm v).held = c.held := rfl
@[simp] theorem Codec.setFrm_answer (c : Codec) (v : Memory) : (c.setFrm v).answer = c.answer := rfl

@[simp] theorem Codec.setAnswer_origin (c : Codec) (v : Nat) : (c.setAnswer v).origin = c.origin := rfl
@[simp] theorem Codec.setAnswer_dest (c : Codec) (v : Nat) : (c.setAnswer v).dest = c.dest := rfl
@[simp] theorem Codec.setAnswer_seqid (c : Codec) (v : Nat) : (c.setAnswer v).seqid = c.seqid := rfl
@[simp] theorem Codec.setAnswer_csum (c : Codec) (v : Nat) : (c.setAnswer v).csum = c.csum := rfl
@[simp] theorem Codec.setAnswer_len (c : Codec) (v : Nat) : (c.setAnswer v).len = c.len := rfl
@[simp] theorem Codec.setAnswer_pay (c : Codec) (v : Nat) : (c.setAnswer v).pay = c.pay := rfl
@[simp] theorem Codec.setAnswer_frm (c : Codec) (v : Nat) : (c.setAnswer v).frm = c.frm := rfl
@[simp] theorem Codec.setAnswer_frmLen (c : Codec) (v : Nat) : (c.setAnswer v).frmLen = c.frmLen := rfl
@[simp] theorem Codec.setAnswer_status (c : Codec) (v : Nat) : (c.setAnswer v).status = c.status := rfl
@[simp] theorem Codec.setAnswer_acc (c : Codec) (v : Nat) : (c.setAnswer v).acc = c.acc := rfl
@[simp] theorem Codec.setAnswer_held (c : Codec) (v : Nat) : (c.setAnswer v).held = c.held := rfl
@[simp] theorem Codec.setAnswer_answer (c : Codec) (v : Nat) : (c.setAnswer v).answer = some v := rfl

/-! ### The machine -/

@[simp] theorem State.setCur_seq (s : State) (c : Codec) : (s.setCur c).seq = s.seq := rfl
@[simp] theorem State.setCur_before (s : State) (c : Codec) : (s.setCur c).before = s.before := rfl
@[simp] theorem State.setCur_cur (s : State) (c : Codec) : (s.setCur c).cur = c := rfl
@[simp] theorem State.setCur_after (s : State) (c : Codec) : (s.setCur c).after = s.after := rfl
@[simp] theorem State.setCur_frmCap (s : State) (c : Codec) : (s.setCur c).frmCap = s.frmCap := rfl
@[simp] theorem State.setCur_input (s : State) (c : Codec) : (s.setCur c).input = s.input := rfl

@[simp] theorem State.setSeq_seq (s : State) (v : U32) : (s.setSeq v).seq = v := rfl
@[simp] theorem State.setSeq_before (s : State) (v : U32) : (s.setSeq v).before = s.before := rfl
@[simp] theorem State.setSeq_cur (s : State) (v : U32) : (s.setSeq v).cur = s.cur := rfl
@[simp] theorem State.setSeq_after (s : State) (v : U32) : (s.setSeq v).after = s.after := rfl
@[simp] theorem State.setSeq_frmCap (s : State) (v : U32) : (s.setSeq v).frmCap = s.frmCap := rfl
@[simp] theorem State.setSeq_input (s : State) (v : U32) : (s.setSeq v).input = s.input := rfl

@[simp] theorem State.setInput_seq (s : State) (es : List Event) : (s.setInput es).seq = s.seq := rfl
@[simp] theorem State.setInput_before (s : State) (es : List Event) : (s.setInput es).before = s.before := rfl
@[simp] theorem State.setInput_cur (s : State) (es : List Event) : (s.setInput es).cur = s.cur := rfl
@[simp] theorem State.setInput_after (s : State) (es : List Event) : (s.setInput es).after = s.after := rfl
@[simp] theorem State.setInput_frmCap (s : State) (es : List Event) : (s.setInput es).frmCap = s.frmCap := rfl
@[simp] theorem State.setInput_input (s : State) (es : List Event) : (s.setInput es).input = es := rfl

/-! ### The compound updates of Machine/Operands.lean -/

@[simp] theorem Codec.storeChecksum_origin (c : Codec) (p : List Byte) : (c.storeChecksum p).origin = c.origin := rfl
@[simp] theorem Codec.storeChecksum_dest (c : Codec) (p : List Byte) : (c.storeChecksum p).dest = c.dest := rfl
@[simp] theorem Codec.storeChecksum_seqid (c : Codec) (p : List Byte) : (c.storeChecksum p).seqid = c.seqid := rfl
@[simp] theorem Codec.storeChecksum_csum (c : Codec) (p : List Byte) : (c.storeChecksum p).csum = csum16 c.origin c.dest c.seqid c.len p := rfl
@[simp] theorem Codec.storeChecksum_len (c : Codec) (p : List Byte) : (c.storeChecksum p).len = c.len := rfl
@[simp] theorem Codec.storeChecksum_pay (c : Codec) (p : List Byte) : (c.storeChecksum p).pay = c.pay := rfl
@[simp] theorem Codec.storeChecksum_frm (c : Codec) (p : List Byte) : (c.storeChecksum p).frm = c.frm := rfl
@[simp] theorem Codec.storeChecksum_frmLen (c : Codec) (p : List Byte) : (c.storeChecksum p).frmLen = c.frmLen := rfl
@[simp] theorem Codec.storeChecksum_status (c : Codec) (p : List Byte) : (c.storeChecksum p).status = c.status := rfl
@[simp] theorem Codec.storeChecksum_acc (c : Codec) (p : List Byte) : (c.storeChecksum p).acc = accSum c.origin c.dest c.seqid c.len p := rfl
@[simp] theorem Codec.storeChecksum_held (c : Codec) (p : List Byte) : (c.storeChecksum p).held = { c.held with csum := true } := rfl
@[simp] theorem Codec.storeChecksum_answer (c : Codec) (p : List Byte) : (c.storeChecksum p).answer = c.answer := rfl

@[simp] theorem Codec.loadPacket_origin (c : Codec) (p : Packet) : (c.loadPacket p).origin = p.origin := rfl
@[simp] theorem Codec.loadPacket_dest (c : Codec) (p : Packet) : (c.loadPacket p).dest = p.dest := rfl
@[simp] theorem Codec.loadPacket_seqid (c : Codec) (p : Packet) : (c.loadPacket p).seqid = p.seqid := rfl
@[simp] theorem Codec.loadPacket_csum (c : Codec) (p : Packet) : (c.loadPacket p).csum = p.csum := rfl
@[simp] theorem Codec.loadPacket_len (c : Codec) (p : Packet) : (c.loadPacket p).len = p.len := rfl
@[simp] theorem Codec.loadPacket_pay (c : Codec) (p : Packet) : (c.loadPacket p).pay = writeBytes c.pay 0 p.payload := rfl
@[simp] theorem Codec.loadPacket_frm (c : Codec) (p : Packet) : (c.loadPacket p).frm = c.frm := rfl
@[simp] theorem Codec.loadPacket_frmLen (c : Codec) (p : Packet) : (c.loadPacket p).frmLen = c.frmLen := rfl
@[simp] theorem Codec.loadPacket_status (c : Codec) (p : Packet) : (c.loadPacket p).status = c.status := rfl
@[simp] theorem Codec.loadPacket_acc (c : Codec) (p : Packet) : (c.loadPacket p).acc = c.acc := rfl
@[simp] theorem Codec.loadPacket_held (c : Codec) (p : Packet) :
    (c.loadPacket p).held = { c.held with origin := true, dest := true, seqid := true, csum := true, len := true } := rfl
@[simp] theorem Codec.loadPacket_answer (c : Codec) (p : Packet) : (c.loadPacket p).answer = c.answer := rfl

/-! ### How a command ends -/

theorem State.complete_eq (s : State) (c : Codec) : s.complete c = .next (s.setCur (c.setStatus 0#2)) := rfl

theorem State.raise_incompleteFrame (s : State) (c : Codec) :
    s.raise c .incompleteFrame = .next (s.setCur (c.setStatus 1#2)) := rfl

theorem State.raise_invalidChecksum (s : State) (c : Codec) :
    s.raise c .invalidChecksum = .next (s.setCur (c.setStatus 2#2)) := rfl

end Sys2Proof.Machine
end

