-- ==== Sys2Proof/Laws/Exec.lean ====
section
/-! SUPPORT. Inversion lemmas: for each meaning and for the step, everything it can answer, said once. -/

namespace Sys2Proof.Machine

/-! ### Meanings -/

/-- CSUM completes or is refused by an unwritten payload byte, and does nothing else. -/
theorem exec_csum_cases (s : State) :
    (s.cur.payload = none ∧ exec .csum s = .refused (.noValue .pay)) ∨
    ∃ p, s.cur.payload = some p ∧ exec .csum s = .next (s.setCur ((s.cur.storeChecksum p).setStatus 0#2)) := by
  cases h : s.cur.payload with
  | none => exact .inl ⟨rfl, by simp [exec, execCsum, h]⟩
  | some p => exact .inr ⟨p, rfl, by simp [exec, execCsum, h, State.complete_eq]⟩

theorem exec_encode_cases (s : State) :
    (s.cur.payload = none ∧ exec .encode s = .refused (.noValue .pay)) ∨
    ∃ p, s.cur.payload = some p ∧
      exec .encode s = .next (s.setCur
        (((s.cur.setFrm (s.cur.marshal p)).setFrmLen (hdrLen + s.cur.len.toNat)).setStatus 0#2)) := by
  cases h : s.cur.payload with
  | none => exact .inl ⟨rfl, by simp [exec, execEncode, h]⟩
  | some p => exact .inr ⟨p, rfl, by simp [exec, execEncode, h, State.complete_eq]⟩

theorem exec_new_cases (s : State) :
    (s.cur.payload = none ∧ exec .new s = .refused (.noValue .pay)) ∨
    ∃ p, s.cur.payload = some p ∧
      exec .new s = .next ((s.setSeq (nextSeq s.seq)).setCur
        ((((s.cur.setOrigin originLocal).setSeqid (nextSeq s.seq)).storeChecksum p).setStatus 0#2)) := by
  cases h : s.cur.payload with
  | none => exact .inl ⟨rfl, by simp [exec, execNew, h]⟩
  | some p => exact .inr ⟨p, rfl, by simp [exec, execNew, h, State.complete_eq]⟩

theorem readFrame_len {m : Memory} {l : Byte} {p : Packet} (h : readFrame m l = some p) : p.len = l := by
  simp only [readFrame, Option.bind_eq_bind, Option.bind_eq_some_iff] at h
  obtain ⟨_, _, _, _, _, _, _, _, _, _, h⟩ := h
  cases h
  rfl

/-- DECODE is refused by an unwritten byte, or raises IncompleteFrame, or raises InvalidChecksum, or delivers the packet,
and does nothing else. -/
theorem exec_decode_cases (s : State) :
    (exec .decode s = .refused (.noValue .frm)) ∨
    (s.cur.tooShort ∧ exec .decode s = .next (s.setCur (s.cur.setStatus 1#2))) ∨
    (∃ p, s.cur.holdsFrame p ∧ trunc16 p.sum ≠ p.csum ∧
      exec .decode s = .next (s.setCur ((s.cur.setAcc p.sum).setStatus 2#2))) ∨
    (∃ p, s.cur.holdsFrame p ∧ trunc16 p.sum = p.csum ∧
      exec .decode s = .next (s.setCur (((s.cur.setAcc p.sum).loadPacket p).setStatus 0#2))) := by
  simp only [exec, execDecode, headerShort, decide_eq_true_eq]
  split_ifs with h1
  · exact .inr (.inl ⟨.inl h1, rfl⟩)
  · cases hl : frameLength s.cur.frm with
    | none => exact .inl rfl
    | some l =>
      simp only [bodyShort, decide_eq_true_eq]
      split_ifs with h2
      · exact .inr (.inl ⟨.inr ⟨l, hl, h2⟩, rfl⟩)
      · cases hp : readFrame s.cur.frm l with
        | none => exact .inl rfl
        | some p =>
          have hpl := readFrame_len hp
          have hf : s.cur.holdsFrame p := ⟨by rw [hpl]; omega, by rw [hpl]; exact hl, by rw [hpl]; exact hp⟩
          by_cases hc : trunc16 p.sum = p.csum
          · exact .inr (.inr (.inr ⟨p, hf, hc, by simp [checkAndLoad, hc, State.complete_eq]⟩))
          · exact .inr (.inr (.inl ⟨p, hf, hc, by simp [checkAndLoad, hc, State.raise_invalidChecksum]⟩))

/-! ### Next states: what a meaning that completes has done -/

theorem exec_csum_next {s t : State} (h : exec .csum s = .next t) :
    ∃ p, s.cur.payload = some p ∧ t = s.setCur ((s.cur.storeChecksum p).setStatus 0#2) := by
  rcases exec_csum_cases s with ⟨_, h'⟩ | ⟨p, hp, h'⟩
  · rw [h'] at h; cases h
  · exact ⟨p, hp, (Host.Outcome.next.inj (h'.symm.trans h)).symm⟩

theorem exec_encode_next {s t : State} (h : exec .encode s = .next t) :
    ∃ p, s.cur.payload = some p ∧
      t = s.setCur (((s.cur.setFrm (s.cur.marshal p)).setFrmLen (hdrLen + s.cur.len.toNat)).setStatus 0#2) := by
  rcases exec_encode_cases s with ⟨_, h'⟩ | ⟨p, hp, h'⟩
  · rw [h'] at h; cases h
  · exact ⟨p, hp, (Host.Outcome.next.inj (h'.symm.trans h)).symm⟩

theorem exec_new_next {s t : State} (h : exec .new s = .next t) :
    ∃ p, s.cur.payload = some p ∧
      t = (s.setSeq (nextSeq s.seq)).setCur
        ((((s.cur.setOrigin originLocal).setSeqid (nextSeq s.seq)).storeChecksum p).setStatus 0#2) := by
  rcases exec_new_cases s with ⟨_, h'⟩ | ⟨p, hp, h'⟩
  · rw [h'] at h; cases h
  · exact ⟨p, hp, (Host.Outcome.next.inj (h'.symm.trans h)).symm⟩

theorem exec_decode_next {s t : State} (h : exec .decode s = .next t) :
    (s.cur.tooShort ∧ t = s.setCur (s.cur.setStatus 1#2)) ∨
    (∃ p, s.cur.holdsFrame p ∧ trunc16 p.sum ≠ p.csum ∧ t = s.setCur ((s.cur.setAcc p.sum).setStatus 2#2)) ∨
    (∃ p, s.cur.holdsFrame p ∧ trunc16 p.sum = p.csum ∧
      t = s.setCur (((s.cur.setAcc p.sum).loadPacket p).setStatus 0#2)) := by
  rcases exec_decode_cases s with h' | ⟨hs, h'⟩ | ⟨p, hf, hc, h'⟩ | ⟨p, hf, hc, h'⟩
  · rw [h'] at h; cases h
  · exact .inl ⟨hs, (Host.Outcome.next.inj (h'.symm.trans h)).symm⟩
  · exact .inr (.inl ⟨p, hf, hc, (Host.Outcome.next.inj (h'.symm.trans h)).symm⟩)
  · exact .inr (.inr ⟨p, hf, hc, (Host.Outcome.next.inj (h'.symm.trans h)).symm⟩)

/-! ### Host accesses -/

/-- A host write that is not stopped changes the addressed instance only, by one register or byte. -/
theorem hostWrite_cases {w : HostWrite} {s t : State} (h : hostWrite w s = .next t) :
    w.wellFormed s.frmCap = true ∧ t = s.setCur (s.cur.written w) := by
  cases w <;> simp only [hostWrite] at h <;> (try split at h) <;> cases h <;> simp_all [HostWrite.wellFormed]

/-- A host read that is not stopped delivers a value and changes nothing else. -/
theorem hostRead_cases {r : HostRead} {s t : State} (h : hostRead r s = .next t) :
    r.wellFormed s.frmCap = true ∧ ∃ n, t = s.setCur (s.cur.setAnswer n) := by
  have key : ∀ {buf b}, hostReadByte buf b s = .next t → ∃ n, t = s.setCur (s.cur.setAnswer n) := by
    intro buf b hb
    cases b with
    | none => simp [hostReadByte] at hb
    | some v => exact ⟨v.toNat, by simpa [hostReadByte] using hb.symm⟩
  cases r <;> simp only [hostRead] at h
  case pay i =>
    split at h
    · rename_i hi; exact ⟨by simpa [HostRead.wellFormed] using hi, key h⟩
    · cases h
  case frm i =>
    split at h
    · rename_i hi; exact ⟨by simpa [HostRead.wellFormed] using hi, key h⟩
    · cases h
  all_goals (cases h; exact ⟨rfl, _, rfl⟩)

/-! ### Addressing an instance and the step -/

/-- Addressing an instance moves no value: the instances, SEQ, FRM_CAP and the input stay. -/
theorem select_eq_some {s t : State} {k : Nat} (h : s.select k = some t) :
    t.insts = s.insts ∧ s.insts[k]? = some t.cur ∧ t.before = s.insts.take k ∧ t.after = s.insts.drop (k + 1) ∧
    t.seq = s.seq ∧ t.frmCap = s.frmCap ∧ t.input = s.input := by
  simp only [State.select, Option.map_eq_some_iff] at h
  obtain ⟨c, hc, rfl⟩ := h
  refine ⟨?_, hc, rfl, rfl, rfl, rfl, rfl⟩
  obtain ⟨hk, rfl⟩ := List.getElem?_eq_some_iff.1 hc
  show s.insts.take k ++ s.insts[k] :: s.insts.drop (k + 1) = s.insts
  rw [List.getElem_cons_drop, List.take_append_drop]

theorem select_eq_none_iff {s : State} {k : Nat} : s.select k = none ↔ s.insts.length ≤ k := by
  simp [State.select]

/-- Addressing the instance already addressed changes nothing. -/
theorem select_before_length (s : State) : s.select s.before.length = some s := by
  have hd : (s.before ++ s.cur :: s.after).drop (s.before.length + 1) = s.after := by
    rw [← List.drop_drop, List.drop_left]; rfl
  simp [State.select, State.insts, hd]

/-- A step that answers a next state is idle, or performs the oldest event on the instance it names. -/
theorem step_cases {s t : State} (h : step s = .next t) :
    (s.input = [] ∧ t = s) ∨
    ∃ e es s', s.input = e :: es ∧ (s.setInput es).select e.inst = some s' ∧ perform e.action s' = .next t := by
  simp only [step, nextEvent] at h
  split at h
  · rename_i hi; cases h; exact .inl ⟨hi, rfl⟩
  · rename_i e es hi
    simp only [runEvent] at h
    split at h
    · cases h
    · rename_i s' hs; exact .inr ⟨e, es, s', hi, hs, h⟩

end Sys2Proof.Machine
end

