-- ==== Sys2Proof/Laws/Memory.lean ====
section
/-! SUPPORT. What the buffer operations do: a write changes one byte and keeps the canonical form, a run of bytes is read and
written byte by byte, and little-endian bytes give back their value. -/

namespace Sys2Proof.Machine

@[simp] theorem Memory.read_nil (a : Nat) : Memory.read [] a = none := rfl

theorem Memory.read_cons (x : Nat) (v : Byte) (m : Memory) (a : Nat) :
    Memory.read ((x, v) :: m) a = if x = a then some v else m.read a := rfl

@[simp] theorem Memory.read_write_same (m : Memory) (a : Nat) (v : Byte) : (m.write a v).read a = some v := by
  induction m with
  | nil => simp [Memory.write, Memory.read]
  | cons cell m ih =>
    obtain ⟨x, y⟩ := cell
    simp only [Memory.write]
    split_ifs with h1 h2
    · simp [Memory.read]
    · simp [Memory.read]
    · rw [Memory.read_cons, if_neg (fun h => h2 h.symm), ih]

theorem Memory.read_write_other (m : Memory) {a b : Nat} (v : Byte) (h : b ≠ a) : (m.write a v).read b = m.read b := by
  induction m with
  | nil => simp [Memory.write, Memory.read, Memory.unlisted, h.symm]
  | cons cell m ih =>
    obtain ⟨x, y⟩ := cell
    simp only [Memory.write]
    split_ifs with h1 h2
    · rw [Memory.read_cons, if_neg h.symm]
    · subst h2; simp [Memory.read_cons, h.symm]
    · simp [Memory.read_cons, ih]

theorem Memory.read_write (m : Memory) (a b : Nat) (v : Byte) :
    (m.write a v).read b = if b = a then some v else m.read b := by
  split_ifs with h
  · subst h; exact m.read_write_same b v
  · exact m.read_write_other v h

/-! ### The canonical form -/

/-- Every listed address is at least `a`. -/
theorem Memory.wf_cons_iff (a : Nat) (v : Byte) (m : Memory) :
    Memory.wf ((a, v) :: m) = true ↔ (∀ cell ∈ m, a < cell.1) ∧ m.wf = true := by
  induction m generalizing a v with
  | nil => simp [Memory.wf]
  | cons cell m ih =>
    obtain ⟨b, y⟩ := cell
    simp only [Memory.wf, Bool.and_eq_true, decide_eq_true_eq, List.mem_cons, forall_eq_or_imp]
    refine ⟨fun ⟨hab, hm⟩ => ⟨⟨hab, fun cell hc => ?_⟩, hm⟩, fun ⟨⟨hab, _⟩, hm⟩ => ⟨hab, hm⟩⟩
    exact lt_trans hab (((ih b y).1 hm).1 cell hc)

theorem Memory.mem_write {m : Memory} {a : Nat} {v : Byte} {cell : Host.Cell} (h : cell ∈ m.write a v) :
    cell = (a, v) ∨ cell ∈ m := by
  induction m with
  | nil => simpa [Memory.write] using h
  | cons head m ih =>
    obtain ⟨x, y⟩ := head
    simp only [Memory.write] at h
    split_ifs at h with h1 h2
    · simpa using h
    · rcases List.mem_cons.1 h with rfl | h
      · exact .inl rfl
      · exact .inr (List.mem_cons_of_mem _ h)
    · rcases List.mem_cons.1 h with rfl | h
      · exact .inr (List.mem_cons_self ..)
      · exact (ih h).imp id (List.mem_cons_of_mem _)

/-- A write keeps the canonical form. -/
theorem Memory.wf_write {m : Memory} (h : m.wf = true) (a : Nat) (v : Byte) : (m.write a v).wf = true := by
  induction m with
  | nil => rfl
  | cons head m ih =>
    obtain ⟨x, y⟩ := head
    obtain ⟨hx, hm⟩ := (Memory.wf_cons_iff x y m).1 h
    simp only [Memory.write]
    split_ifs with h1 h2
    · exact (Memory.wf_cons_iff a v _).2 ⟨by
        intro cell hc
        rcases List.mem_cons.1 hc with rfl | hc
        · exact h1
        · exact lt_trans h1 (hx cell hc), h⟩
    · subst h2; exact (Memory.wf_cons_iff a v m).2 ⟨hx, hm⟩
    · refine (Memory.wf_cons_iff x y _).2 ⟨fun cell hc => ?_, ih hm⟩
      rcases Memory.mem_write hc with rfl | hc
      · exact show x < a by omega
      · exact hx cell hc

/-- A run of writes keeps the canonical form. -/
theorem writeBytes_wf {m : Memory} (h : m.wf = true) (a : Nat) (bs : List Byte) : (writeBytes m a bs).wf = true := by
  induction bs generalizing m a with
  | nil => exact h
  | cons b bs ih => exact ih (Memory.wf_write h a b) (a + 1)

/-- A multi-byte write keeps the canonical form. -/
theorem memWrite_wf {m : Memory} (h : m.wf = true) (a n v : Nat) : (memWrite m a n v).wf = true :=
  writeBytes_wf h a (leBytes n v)

theorem reset_memory_wf : State.reset.cur.pay.wf = true ∧ State.reset.cur.frm.wf = true := ⟨rfl, rfl⟩

/-! ### Runs of bytes -/

@[simp] theorem readBytes_zero (m : Memory) (a : Nat) : readBytes m a 0 = some [] := rfl

theorem readBytes_succ_eq_some {m : Memory} {a n : Nat} {bs : List Byte} :
    readBytes m a (n + 1) = some bs ↔ ∃ b bs', m.read a = some b ∧ readBytes m (a + 1) n = some bs' ∧ bs = b :: bs' := by
  simp only [readBytes]
  cases m.read a with
  | none => simp
  | some b =>
    cases readBytes m (a + 1) n with
    | none => simp
    | some bs' => simp [eq_comm]

/-- A run is read when every byte of it is, and then it is those bytes in order. -/
theorem readBytes_eq_some_iff {m : Memory} {a n : Nat} {bs : List Byte} :
    readBytes m a n = some bs ↔ bs.length = n ∧ ∀ i < n, m.read (a + i) = bs[i]? := by
  induction n generalizing a bs with
  | zero =>
    simp only [readBytes_zero, Option.some.injEq, not_lt_zero, IsEmpty.forall_iff, implies_true, and_true]
    exact ⟨fun h => h ▸ rfl, fun h => (List.length_eq_zero_iff.1 h).symm⟩
  | succ n ih =>
    rw [readBytes_succ_eq_some]
    constructor
    · rintro ⟨b, bs', hb, hbs, rfl⟩
      obtain ⟨hl, hr⟩ := ih.1 hbs
      refine ⟨by simp [hl], fun i hi => ?_⟩
      cases i with
      | zero => simpa using hb
      | succ i => simpa [Nat.add_assoc, Nat.add_comm 1] using hr i (by omega)
    · rintro ⟨hl, hr⟩
      obtain ⟨b, bs', rfl⟩ := List.exists_cons_of_length_eq_add_one hl
      refine ⟨b, bs', by simpa using hr 0 (by omega), ih.2 ⟨by simpa using hl, fun i hi => ?_⟩, rfl⟩
      simpa [Nat.add_assoc, Nat.add_comm 1] using hr (i + 1) (by omega)

theorem readBytes_length {m : Memory} {a n : Nat} {bs : List Byte} (h : readBytes m a n = some bs) : bs.length = n :=
  (readBytes_eq_some_iff.1 h).1

/-- A run reads the same in two buffers that agree on its bytes. -/
theorem readBytes_congr {m m' : Memory} {a n : Nat} (h : ∀ x, a ≤ x → x < a + n → m.read x = m'.read x) :
    readBytes m a n = readBytes m' a n := by
  induction n generalizing a with
  | zero => rfl
  | succ n ih =>
    have hrest : readBytes m (a + 1) n = readBytes m' (a + 1) n := ih fun x _ _ => h x (by omega) (by omega)
    simp only [readBytes, h a (le_refl a) (by omega), hrest]

/-- A run cannot be read exactly when some byte of it holds no value. -/
theorem readBytes_eq_none_iff {m : Memory} {a n : Nat} : readBytes m a n = none ↔ ∃ i < n, m.read (a + i) = none := by
  induction n generalizing a with
  | zero => simp
  | succ n ih =>
    simp only [readBytes]
    cases hb : m.read a with
    | none => exact ⟨fun _ => ⟨0, by omega, by simpa using hb⟩, fun _ => rfl⟩
    | some b =>
      have : (∃ i < n + 1, m.read (a + i) = none) ↔ ∃ i < n, m.read (a + 1 + i) = none := by
        constructor
        · rintro ⟨i, hi, h⟩
          cases i with
          | zero => simp [hb] at h
          | succ i => exact ⟨i, by omega, by rwa [show a + 1 + i = a + (i + 1) by omega]⟩
        · rintro ⟨i, hi, h⟩
          exact ⟨i + 1, by omega, by rwa [show a + (i + 1) = a + 1 + i by omega]⟩
      rw [this, ← ih]
      cases readBytes m (a + 1) n <;> simp

/-- What a byte reads as after a run of writes. -/
theorem read_writeBytes (m : Memory) (a : Nat) (bs : List Byte) (x : Nat) :
    (writeBytes m a bs).read x = if a ≤ x ∧ x < a + bs.length then bs[x - a]? else m.read x := by
  induction bs generalizing m a with
  | nil => simp [writeBytes]
  | cons b bs ih =>
    rw [writeBytes, ih, Memory.read_write]
    simp only [List.length_cons]
    by_cases hx : x = a
    · subst hx; simp
    · by_cases h : a + 1 ≤ x ∧ x < a + 1 + bs.length
      · rw [if_pos h, if_pos (by omega), show x - a = (x - (a + 1)) + 1 by omega, List.getElem?_cons_succ]
      · rw [if_neg h, if_neg hx, if_neg (by omega)]

/-- The bytes written are read back. -/
theorem readBytes_writeBytes_same (m : Memory) (a : Nat) (bs : List Byte) :
    readBytes (writeBytes m a bs) a bs.length = some bs :=
  readBytes_eq_some_iff.2 ⟨rfl, fun i hi => by rw [read_writeBytes, if_pos (by omega), Nat.add_sub_cancel_left]⟩

/-- A run apart from the bytes written is read as before. -/
theorem readBytes_writeBytes_apart (m : Memory) (a : Nat) (bs : List Byte) {x n : Nat}
    (h : x + n ≤ a ∨ a + bs.length ≤ x) : readBytes (writeBytes m a bs) x n = readBytes m x n :=
  readBytes_congr fun y _ _ => by rw [read_writeBytes, if_neg (by omega)]

/-! ### Byte order -/

@[simp] theorem leBytes_length (n v : Nat) : (leBytes n v).length = n := by
  induction n generalizing v with
  | zero => rfl
  | succ n ih => simp [leBytes, ih]

theorem leValue_lt (bs : List Byte) : leValue bs < 256 ^ bs.length := by
  induction bs with
  | nil => simp [leValue]
  | cons b bs ih =>
    have hb : b.toNat < 256 := b.isLt
    simp only [leValue, List.length_cons, pow_succ]
    omega

theorem leValue_leBytes (n v : Nat) : leValue (leBytes n v) = v % 256 ^ n := by
  induction n generalizing v with
  | zero => simp [leBytes, leValue, Nat.mod_one]
  | succ n ih =>
    rw [Nat.pow_succ', Nat.mod_mul, ← ih]
    simp [leBytes, leValue]

theorem leBytes_leValue (bs : List Byte) : leBytes bs.length (leValue bs) = bs := by
  induction bs with
  | nil => rfl
  | cons b bs ih =>
    have hb : b.toNat < 256 := b.isLt
    simp only [List.length_cons, leBytes, leValue]
    rw [show (b.toNat + 256 * leValue bs) / 256 = leValue bs by omega, ih]
    congr 1
    apply BitVec.eq_of_toNat_eq
    simp only [BitVec.toNat_ofNat]
    omega

end Sys2Proof.Machine
end

