-- ==== Sys2Proof/Laws/Frame.lean ====
section
/-! SUPPORT. The implicit operands in the statements' words: the payload in PAY, the frame in FRM, and what marshalling a packet
leaves in FRM byte by byte. -/

namespace Sys2Proof.Machine

/-! ### The payload -/

theorem payload_eq_some_iff {c : Codec} {p : List Byte} : c.payload = some p ↔ c.PayloadIs p := by
  simp only [Codec.payload, readBytes_eq_some_iff, Codec.PayloadIs, Nat.zero_add]
  constructor
  · rintro ⟨h, h'⟩; exact ⟨h, fun i hi => h' i (h ▸ hi)⟩
  · rintro ⟨h, h'⟩; exact ⟨h, fun i hi => h' i (h ▸ hi)⟩

theorem payload_eq_none_iff {c : Codec} : c.payload = none ↔ ∃ a < c.len.toNat, c.pay.read a = none := by
  simp [Codec.payload, readBytes_eq_none_iff]

/-! ### The frame -/

/-- A one-byte access is the byte. -/
theorem memRead_one (m : Memory) (a : Nat) : memRead m a 1 = (m.read a).map BitVec.toNat := by
  cases h : m.read a <;> simp [memRead, readBytes, h, leValue]

theorem frameLength_eq_read (m : Memory) : frameLength m = m.read 16 := by
  simp only [frameLength, offLen, memRead_one]
  cases m.read 16 <;> simp

/-- A multi-byte access of `n` bytes gives a value of `8 n` bits. -/
theorem memRead_lt {m : Memory} {a n v : Nat} (h : memRead m a n = some v) : v < 256 ^ n := by
  simp only [memRead, Option.map_eq_some_iff] at h
  obtain ⟨bs, hb, rfl⟩ := h
  exact readBytes_length hb ▸ leValue_lt bs

/-- The fields of a frame are read exactly when its bytes hold them. -/
theorem readFrame_eq_some_iff {m : Memory} {l : Byte} {p : Packet} :
    (m.read 16 = some l ∧ readFrame m l = some p) ↔ (p.len = l ∧ FrameAt m p) := by
  simp only [readFrame, Option.bind_eq_bind, Option.bind_eq_some_iff, Option.pure_def, FrameAt, offOrigin, offDest, offSeq,
    offCsum, hdrLen]
  constructor
  · rintro ⟨hl, o, ho, d, hd, s, hs, c, hc, bs, hb, h⟩
    cases h
    have h4 : (256 : Nat) ^ 4 = 2 ^ 32 := rfl
    have h2 : (256 : Nat) ^ 2 = 2 ^ 16 := rfl
    obtain ⟨hlen, hbytes⟩ := readBytes_eq_some_iff.1 hb
    simp only [BitVec.toNat_ofNat, Nat.mod_eq_of_lt (h4 ▸ memRead_lt ho), Nat.mod_eq_of_lt (h4 ▸ memRead_lt hd),
      Nat.mod_eq_of_lt (h4 ▸ memRead_lt hs), Nat.mod_eq_of_lt (h2 ▸ memRead_lt hc)]
    exact ⟨trivial, ho, hd, hs, hc, by rw [memRead_one, hl]; rfl, hlen, fun i hi => hbytes i (hlen ▸ hi)⟩
  · rintro ⟨rfl, ho, hd, hs, hc, hl, hlen, hbytes⟩
    refine ⟨?_, _, ho, _, hd, _, hs, _, hc, p.payload, readBytes_eq_some_iff.2 ⟨hlen, fun i hi => hbytes i (hlen ▸ hi)⟩, by simp⟩
    rw [memRead_one, Option.map_eq_some_iff] at hl
    obtain ⟨b, hb, hbl⟩ := hl
    rw [hb, BitVec.eq_of_toNat_eq hbl]

/-- FRM holds a whole frame of `p`, in the statements' words. -/
theorem holdsFrame_iff {c : Codec} {p : Packet} : c.holdsFrame p ↔ FrameAt c.frm p ∧ 17 + p.len.toNat ≤ c.frmLen := by
  simp only [Codec.holdsFrame, frameLength_eq_read, readFrame_eq_some_iff, hdrLen, true_and]
  exact and_comm

/-! ### Marshalling -/

/-- FRM after marshalling: the seventeen header bytes, the payload, and from there on what was there. -/
theorem read_marshal (c : Codec) (p : List Byte) (x : Nat) :
    (c.marshal p).read x =
      if 17 + p.length ≤ x then c.frm.read x
      else if 17 ≤ x then p[x - 17]?
      else (leBytes 1 Config.sync0.toNat ++ leBytes 1 Config.sync1.toNat ++ leBytes 4 c.origin.toNat ++
        leBytes 4 c.dest.toNat ++ leBytes 4 c.seqid.toNat ++ leBytes 2 c.csum.toNat ++ leBytes 1 c.len.toNat)[x]? := by
  have split : ∀ (m : Memory) (a : Nat) (bs cs : List Byte),
      writeBytes (writeBytes m a bs) (a + bs.length) cs = writeBytes m a (bs ++ cs) := by
    intro m a bs cs
    induction bs generalizing m a with
    | nil => rfl
    | cons b bs ih => rw [List.length_cons, writeBytes, show a + (bs.length + 1) = a + 1 + bs.length by omega, ih]; rfl
  have all : c.marshal p = writeBytes c.frm 0 ((leBytes 1 Config.sync0.toNat ++ leBytes 1 Config.sync1.toNat ++
      leBytes 4 c.origin.toNat ++ leBytes 4 c.dest.toNat ++ leBytes 4 c.seqid.toNat ++ leBytes 2 c.csum.toNat ++
      leBytes 1 c.len.toNat) ++ p) := by
    simp only [← split, List.length_append, leBytes_length, Codec.marshal, memWrite, offSync, offOrigin, offDest, offSeq, offCsum,
      offLen, hdrLen, Nat.zero_add, Nat.reduceAdd]
  rw [all, read_writeBytes]
  have hlen : (leBytes 1 Config.sync0.toNat ++ leBytes 1 Config.sync1.toNat ++ leBytes 4 c.origin.toNat ++
      leBytes 4 c.dest.toNat ++ leBytes 4 c.seqid.toNat ++ leBytes 2 c.csum.toNat ++ leBytes 1 c.len.toNat).length = 17 := by
    simp
  rw [List.length_append, hlen]
  split_ifs with h1 h2 h3 h2 h3
  · omega
  · rw [Nat.sub_zero, List.getElem?_append_right (by omega), hlen]
  · rw [Nat.sub_zero, List.getElem?_append_left (by omega)]
  · rfl
  · omega
  · omega

theorem Codec.marshal_wf {c : Codec} (h : c.frm.wf = true) (p : List Byte) : (c.marshal p).wf = true :=
  writeBytes_wf (memWrite_wf (memWrite_wf (memWrite_wf (memWrite_wf (memWrite_wf (memWrite_wf (memWrite_wf h
    _ _ _) _ _ _) _ _ _) _ _ _) _ _ _) _ _ _) _ _ _) _ _

/-! ### Addresses stay within a buffer -/

theorem Memory.below_write {m : Memory} {cap a : Nat} (h : m.below cap = true) (ha : a < cap) (v : Byte) :
    (m.write a v).below cap = true := by
  simp only [Memory.below, List.all_eq_true, decide_eq_true_eq] at *
  intro cell hc
  rcases Memory.mem_write hc with rfl | hc
  · exact ha
  · exact h cell hc

theorem writeBytes_below {m : Memory} {cap a : Nat} {bs : List Byte} (h : m.below cap = true) (ha : a + bs.length ≤ cap) :
    (writeBytes m a bs).below cap = true := by
  induction bs generalizing m a with
  | nil => exact h
  | cons b bs ih =>
    rw [List.length_cons] at ha
    exact ih (Memory.below_write h (by omega) b) (by omega)

theorem memWrite_below {m : Memory} {cap a n v : Nat} (h : m.below cap = true) (ha : a + n ≤ cap) :
    (memWrite m a n v).below cap = true := writeBytes_below h (by simpa using ha)

theorem Codec.marshal_below {c : Codec} {cap : Nat} (h : c.frm.below cap = true) {p : List Byte} (hp : 17 + p.length ≤ cap) :
    (c.marshal p).below cap = true := by
  have hcap : 17 ≤ cap := by omega
  unfold Codec.marshal
  refine writeBytes_below (memWrite_below (memWrite_below (memWrite_below (memWrite_below (memWrite_below (memWrite_below
    (memWrite_below h ?_) ?_) ?_) ?_) ?_) ?_) ?_) hp <;>
  simp only [offSync, offOrigin, offDest, offSeq, offCsum, offLen] <;> omega

end Sys2Proof.Machine
end

