-- ==== Sys2Proof/Laws/PerInstr.lean ====
section
/-! SUPPORT. Statements about every command as syntax, one lemma per constructor. -/

namespace Sys2Proof.Laws.OpCode

/-- A command is well formed, its OP value decodes to it, and so does the byte that holds that value. -/
def Statement (i : Instr) : Prop :=
  i.wellFormed = true ∧ decodeOp (encode i) = i ∧ ∀ rest, decode (encodeBytes i ++ rest) = .ok (i, rest)

theorem csum : Statement .csum := ⟨rfl, rfl, fun _ => rfl⟩

theorem encode : Statement .encode := ⟨rfl, rfl, fun _ => rfl⟩

theorem decode : Statement .decode := ⟨rfl, rfl, fun _ => rfl⟩

theorem new : Statement .new := ⟨rfl, rfl, fun _ => rfl⟩

end Sys2Proof.Laws.OpCode
end

