-- ==== Sys2Proof/Tests/Slice0.lean ====
section
/-! SUPPORT. The model's own tests. Expected results are the vectors of 95_test_vectors.md and the encodings of
30_encoding.md; the witnesses show, for each statement with hypotheses, a state and operands that meet them. -/

namespace Sys2Proof.Tests

open Sys2Proof.Machine

/-! ### What WellFormed refuses -/

theorem test_wf_commands : [Instr.csum, .encode, .decode, .new].all Instr.wellFormed = true := by decide

theorem test_wf_refuses_pay_255 : (HostAction.write (.pay 255 0)).wellFormed 272 = false := by decide

theorem test_wf_refuses_frm_272 : (HostAction.write (.frm 272 0)).wellFormed 272 = false := by decide

theorem test_wf_refuses_frmlen_273 : (HostAction.write (.frmLen 273)).wellFormed 272 = false := by decide

theorem test_wf_refuses_reading_pay_255 : (HostAction.read (.pay 255)).wellFormed 272 = false := by decide

theorem test_wf_refuses_reading_frm_272 : (HostAction.read (.frm 272)).wellFormed 272 = false := by decide

theorem test_wf_refuses_absent_instance : (Event.mk 1 (.issue 0)).wellFormed 1 272 = false := by decide

/-! ### Command codes, written out from 30_encoding.md R71 -/

theorem test_decode_csum : decodeTableWord 8 0b00 = some .csum := by decide

theorem test_decode_encode : decodeTableWord 8 0b01 = some .encode := by decide

theorem test_decode_decode : decodeTableWord 8 0b10 = some .decode := by decide

theorem test_decode_new : decodeTableWord 8 0b11 = some .new := by decide

theorem test_decode_stream : decode [0b11#8, 0b01#8] = .ok (.new, [0b01#8]) := by rfl

theorem test_decode_rejects_third_bit : decode [0b100#8] = .error (.notACommand 0b100#8) := by rfl

theorem test_decode_rejects_no_byte : decode [] = .error .noByte := by rfl

/-! ### One step of each command -/

/-- The bytes of a buffer from address `a` on. -/
def bytesAt (a : Nat) : List Byte → Memory
  | [] => []
  | b :: bs => (a, b) :: bytesAt (a + 1) bs

/-- An instance with a packet, a frame and its length, and the counter before it. -/
def st (seq o d s : U32) (c : U16) (pay frm : List Byte) : State :=
  { State.reset with
    seq := seq
    cur := { Codec.reset with
      origin := o, dest := d, seqid := s, csum := c, len := BitVec.ofNat 8 pay.length, pay := bytesAt 0 pay
      frm := bytesAt 0 frm, frmLen := frm.length, held := ⟨true, true, true, true, true, true, true⟩ } }

/-- The next state of an outcome. -/
def nextOf : Host.Outcome State Fault Refusal → Option State
  | .next s => some s
  | .fault _ => none
  | .refused _ => none

/-- T1.12: a byte FF adds 255; ACC as in the table. -/
theorem test_csum_adds_unsigned_bytes :
    (nextOf (exec .csum (st 0 0x12345678 0x9ABCDEF0 0x2A 0 [0x01, 0x02, 0xFF] []))).map
      (fun t => (t.cur.csum, t.cur.acc, t.cur.status)) = some (0x3697#16, 0xACF13697#32, 0#2) := by decide

/-- T1.7: ACC wraps at 32 bits. -/
theorem test_csum_wraps :
    (nextOf (exec .csum (st 0 0xFFFFFFFF 1 0 0x1234 [] []))).map (fun t => (t.cur.csum, t.cur.acc)) =
      some (0#16, 0#32) := by decide

/-- T2.2: FRMLEN and the bytes from offset 2 on. -/
theorem test_encode_little_endian :
    (nextOf (exec .encode (st 0 0x12345678 0x9ABCDEF0 0x2A 0x3697 [0x01, 0x02, 0xFF] []))).map
      (fun t => (t.cur.frmLen, readBytes t.cur.frm 2 18)) =
      some (20, some [0x78, 0x56, 0x34, 0x12, 0xF0, 0xDE, 0xBC, 0x9A, 0x2A, 0, 0, 0, 0x97, 0x36, 3, 1, 2, 0xFF]) := by
  decide

/-- T2.7: a checksum that does not satisfy the invariant goes out as it is held. -/
theorem test_encode_keeps_wrong_checksum :
    (nextOf (exec .encode (st 0 0x12345678 0x9ABCDEF0 0x2A 0 [0x01, 0x02, 0xFF] []))).map
      (fun t => (readBytes t.cur.frm 14 2, t.cur.csum, t.cur.status)) = some (some [0, 0], 0#16, 0#2) := by decide

/-- T3.13: two bytes after the frame are ignored. -/
theorem test_decode_ignores_trailing :
    (nextOf (exec .decode (st 0 9 9 9 9 [] [0x99, 0x77, 0, 0, 0, 0, 0x00, 0xA2, 0x13, 0, 7, 0, 0, 0, 0x20, 0xA4, 5, 0x68, 0x65,
      0x6C, 0x6C, 0x6F, 0xAA, 0xBB]))).map
      (fun t => (t.cur.status, t.cur.dest, t.cur.csum, t.cur.payload)) =
      some (0#2, 0x0013A200#32, 0xA420#16, some [0x68, 0x65, 0x6C, 0x6C, 0x6F]) := by decide

/-- T3.2: one payload byte changed; ACC is the sum of the fields, 2 + 1 + 1 + 44h (log 8). -/
theorem test_decode_rejects_wrong_sum :
    (nextOf (exec .decode (st 0 9 9 9 9 [] [0x99, 0x77, 0, 0, 0, 0, 2, 0, 0, 0, 1, 0, 0, 0, 0x47, 0, 1, 0x44]))).map
      (fun t => (t.cur.status, t.cur.dest, t.cur.len, t.cur.acc)) = some (2#2, 9#32, 0#8, 0x48#32) := by decide

/-- T4.1: the first NEW after reset. -/
theorem test_new_first_id_is_one :
    (nextOf (exec .new (st 0 7 2 7 0 [0x43] []))).map
      (fun t => (t.seq, t.cur.origin, t.cur.dest, t.cur.seqid, t.cur.csum)) =
      some (1#32, 0#32, 2#32, 1#32, 0x0047#16) := by decide

/-- T4.4: the wrap. -/
theorem test_new_wraps :
    (nextOf (exec .new (st 0xFFFFFFFF 0 5 0 0 [0x10, 0x20] []))).map (fun t => (t.seq, t.cur.seqid, t.cur.csum, t.cur.status)) =
      some (0#32, 0#32, 0x0037#16, 0#2) := by decide

/-- Each command runs as the first after reset. -/
theorem test_commands_run_from_reset :
    [0b00, 0b01, 0b10, 0b11].all (fun w => (nextOf (step (State.reset.withFetchWord 8 w))).isSome) = true := by decide

/-! ### Witnesses: each statement's hypotheses are met together -/

/-- The packet of 41_encode.md R113, the first after reset. -/
def packetC : Packet := { origin := 0, dest := 2, seqid := 1, csum := 0x47, len := 1, payload := [0x43] }

/-- T3.1 with sync bytes 99 77. -/
def frameC : List Byte := [0x99, 0x77, 0, 0, 0, 0, 2, 0, 0, 0, 1, 0, 0, 0, 0x47, 0, 1, 0x43]

/-- The packet and its frame in an instance. -/
def stC : State := st 0 0 2 1 0x47 [0x43] frameC

/-- T3.14: a frame of 17 bytes, all zero from offset 2 on. -/
def stZero : State := st 0 0 0 0 0 [] [0x99, 0x77, 0, 0, 0, 0, 0, 0, 0, 0, 0, 0, 0, 0, 0, 0, 0]

/-- A command for the instance addressed; a host write and a host read for the last of two, not yet addressed. -/
theorem witness_StepRunsTheIssuedCommand :
    ((stC.setInput [⟨0, .issue 0b11#2⟩]).input = [⟨0, .issue 0b11#2⟩] ∧ 0 < stC.insts.length) ∧
    (((State.resetOf 1 272).setInput [⟨1, .write (.origin 7)⟩]).input = [⟨1, .write (.origin 7)⟩] ∧
      1 < (State.resetOf 1 272).insts.length) ∧
    (((State.resetOf 1 272).setInput [⟨1, .read .len⟩]).input = [⟨1, .read .len⟩] ∧
      (State.resetOf 1 272).before.length ≠ 1) := by decide

/-- A host write of the last of two instances, from a state in which the first is addressed: R24, R36. -/
theorem test_host_write_reaches_its_instance :
    (nextOf (step ((State.resetOf 1 272).setInput [⟨1, .write (.origin 7)⟩]))).map
      (fun t => t.insts.map (·.origin)) = some [0#32, 7#32] := by decide

theorem witness_PlacedCommandRunsNext : decodeTableWord 8 3 = some .new := by decide

theorem witness_IdleStepChangesNothing : State.reset.input = [] := rfl

theorem witness_EventForAbsentInstanceFaults :
    (stC.setInput [⟨1, .issue 0#2⟩]).input = [⟨1, .issue 0#2⟩] ∧ stC.insts.length ≤ 1 := ⟨rfl, by decide⟩

theorem witness_ResetMeetsTheInvariant : 272 ≤ frmCapDefault := by decide

theorem witness_EveryStepKeepsTheInvariant :
    (stC.setInput [⟨0, .issue 0b01#2⟩]).inv = true ∧ ∃ t, step (stC.setInput [⟨0, .issue 0b01#2⟩]) = .next t :=
  ⟨by decide, _, rfl⟩

theorem witness_CommandByteDecodesOrIsRejected : 4 ≤ (4#8).toNat ∧ 4 ≤ (255#8).toNat := by decide

theorem witness_MemWriteIsLittleEndian :
    ((1 = 1 ∨ 1 = 2 ∨ 1 = 4) ∧ 255 < 2 ^ (8 * 1)) ∧ ((4 = 1 ∨ 4 = 2 ∨ 4 = 4) ∧ 0xFFFFFFFF < 2 ^ (8 * 4)) := by decide

theorem witness_MemReadAssemblesLittleEndian :
    (([0x47, 0x00] : List Byte).length = 2 ∧ ∀ i < 2, stC.cur.frm.read (14 + i) = ([0x47, 0x00] : List Byte)[i]?) ∧
    (2 + 2 ≤ 4 ∧ 3 + 1 ≤ 4) := by decide

theorem witness_BuffersAreStorage :
    254 < 255 ∧ 271 < stC.frmCap ∧ ∃ t, perform (.read (.frm 17)) stC = .next t := ⟨by decide, by decide, _, rfl⟩

theorem witness_ChecksumNeedsOnlySixteenBits : 16 ≤ 16 ∧ ([0x43] : List Byte).length = (1#8).toNat := by decide

theorem witness_ChecksumIgnoresPayloadOrder : ([0x41, 0x42] : List Byte).Perm [0x42, 0x41] := List.Perm.swap ..

theorem witness_OneChangedByteChangesTheChecksum :
    0 < ([0x43] : List Byte).length ∧ ([0x43] : List Byte)[0]? ≠ some 0x44#8 := by decide

theorem witness_payload : stC.cur.PayloadIs [0x43] := by unfold Codec.PayloadIs; decide

theorem witness_payload_empty : State.reset.cur.PayloadIs [] := by unfold Codec.PayloadIs; decide

theorem witness_CsumStoresThePacketChecksum : stC.cur.PayloadIs [0x43] ∧ State.reset.cur.PayloadIs [] :=
  ⟨witness_payload, witness_payload_empty⟩

theorem witness_CsumLeavesTheRest : ∃ t, exec .csum stC = .next t := ⟨_, rfl⟩

theorem witness_EncodeMarshalsThePacket : stC.cur.PayloadIs [0x43] ∧ State.reset.cur.PayloadIs [] :=
  ⟨witness_payload, witness_payload_empty⟩

theorem witness_EncodeLeavesTheRest : ∃ t, exec .encode stC = .next t := ⟨_, rfl⟩

theorem witness_FrameSizeIsSeventeenPlusLength :
    (∃ t, exec .encode stC = .next t) ∧ ∃ t, exec .encode State.reset = .next t := ⟨⟨_, rfl⟩, _, rfl⟩

theorem witness_frame : FrameAt stC.cur.frm packetC := by unfold FrameAt; decide

theorem witness_valid : packetC.Valid := by unfold Packet.Valid; decide

/-- T3.2: the frame with its payload byte changed, not valid. -/
theorem witness_invalid :
    FrameAt (stC.cur.frm.write 17 0x44) { packetC with payload := [0x44] } ∧
    ¬ Packet.Valid { packetC with payload := [0x44] } := ⟨by unfold FrameAt; decide, by unfold Packet.Valid; decide⟩

/-- FRMLEN 16; FRMLEN 17 with length 1 (T3.10's case). -/
theorem witness_tooShort :
    (stC.setCur (stC.cur.setFrmLen 16)).cur.frmLen < 17 ∧
    (17 ≤ (stC.setCur (stC.cur.setFrmLen 17)).cur.frmLen ∧
      (stC.setCur (stC.cur.setFrmLen 17)).cur.frm.read 16 = some 1#8 ∧
      (stC.setCur (stC.cur.setFrmLen 17)).cur.frmLen < 17 + (1#8).toNat) := by decide

/-- T3.2: FRMLEN is exactly 17 + l and the sums differ. -/
theorem witness_badSum :
    FrameAt (stC.setCur (stC.cur.setFrm (stC.cur.frm.write 17 0x44))).cur.frm { packetC with payload := [0x44] } ∧
    17 + packetC.len.toNat ≤ (stC.setCur (stC.cur.setFrm (stC.cur.frm.write 17 0x44))).cur.frmLen ∧
    ¬ Packet.Valid { packetC with payload := [0x44] } := ⟨witness_invalid.1, by decide, witness_invalid.2⟩

/-- T3.1 and T3.14: FRMLEN is exactly 17 + l and the sums agree, with a payload and without. -/
theorem witness_goodSum :
    (FrameAt stC.cur.frm packetC ∧ 17 + packetC.len.toNat ≤ stC.cur.frmLen ∧ packetC.Valid) ∧
    (FrameAt stZero.cur.frm ⟨0, 0, 0, 0, 0, []⟩ ∧ 17 + (0#8).toNat ≤ stZero.cur.frmLen ∧
      Packet.Valid ⟨0, 0, 0, 0, 0, []⟩) :=
  ⟨⟨witness_frame, by decide, witness_valid⟩, by unfold FrameAt; decide, by decide, by unfold Packet.Valid; decide⟩

/-- The clauses' hypotheses, each met at the edge of its range: `witness_tooShort`, `witness_badSum`, `witness_goodSum`. -/
theorem witness_DecodeFollowsItsSteps :
    (∃ s : State, s.cur.frmLen < 17) ∧
    (∃ (s : State) (l : Byte), 17 ≤ s.cur.frmLen ∧ s.cur.frm.read 16 = some l ∧ s.cur.frmLen < 17 + l.toNat) ∧
    (∃ (s : State) (p : Packet), FrameAt s.cur.frm p ∧ 17 + p.len.toNat ≤ s.cur.frmLen ∧ ¬ p.Valid) ∧
    (∃ (s : State) (p : Packet), FrameAt s.cur.frm p ∧ 17 + p.len.toNat ≤ s.cur.frmLen ∧ p.Valid) ∧
    ∃ s t : State, exec .decode s = .next t :=
  ⟨⟨_, witness_tooShort.1⟩, ⟨_, _, witness_tooShort.2⟩, ⟨_, _, witness_badSum⟩, ⟨_, _, witness_goodSum.1⟩, stC, _, rfl⟩

theorem witness_IncompleteFrameExactlyWhenTooShort :
    (∃ t, exec .decode (stC.setCur (stC.cur.setFrmLen 17)) = .next t ∧ t.cur.status = 1#2) ∧
    ∃ t, exec .decode (stC.setCur (stC.cur.setFrmLen 16)) = .next t ∧ t.cur.status = 1#2 := ⟨⟨_, rfl, rfl⟩, _, rfl, rfl⟩

theorem witness_InvalidChecksumExactlyWhenSumsDiffer :
    ∃ t, exec .decode (stC.setCur (stC.cur.setFrm (stC.cur.frm.write 17 0x44))) = .next t ∧ t.cur.status = 2#2 :=
  ⟨_, rfl, by decide⟩

theorem witness_EveryFrameFallsInOneClass : ∀ a, 2 ≤ a → a < stC.cur.frmLen → stC.cur.frm.read a ≠ none := by
  have h : ∀ a < 18, stC.cur.frm.read a ≠ none := by decide
  exact fun a _ ha => h a ha

theorem witness_DecodeReadsOnlyItsBytes :
    stC.cur.DecodeReads 16 ∧ stC.cur.DecodeReads 2 ∧ stC.cur.DecodeReads 17 ∧ ¬ stC.cur.DecodeReads 0 ∧
    (∀ a, stC.cur.DecodeReads a → (stC.cur.frm.write 0 0x55).read a = stC.cur.frm.read a) ∧
    (stZero.setCur { stZero.cur with frm := [] }).cur.DecodeReads 16 := by
  refine ⟨⟨by decide, .inl rfl⟩, ⟨by decide, .inr ⟨1, by decide⟩⟩, ⟨by decide, .inr ⟨1, by decide⟩⟩, ?_, ?_, ⟨by decide, .inl rfl⟩⟩
  · rintro ⟨_, h | ⟨_, _, _, h, _⟩⟩ <;> omega
  · have h : ∀ a, 2 ≤ a → a < 18 → (stC.cur.frm.write 0 0x55).read a = stC.cur.frm.read a := by
      have h' : ∀ a < 18, 2 ≤ a → (stC.cur.frm.write 0 0x55).read a = stC.cur.frm.read a := by decide
      exact fun a h1 h2 => h' a h2 h1
    rintro a ⟨_, rfl | ⟨l, hl, hle, h2, hlt⟩⟩
    · exact h 16 (by omega) (by omega)
    · exact h a h2 (by have : stC.cur.frmLen = 18 := rfl
                       omega)

theorem witness_DecodeIgnoresMarkerAndTrailingBytes :
    stC.cur.frm.read 16 = some 1#8 ∧ 17 + (1#8).toNat ≤ stC.cur.frmLen ∧ 17 + (1#8).toNat ≤ 272 ∧
    ∀ a < 18, 2 ≤ a → ((stC.cur.frm.write 1 0x55).write 18 0xAA).read a = stC.cur.frm.read a := by decide

theorem witness_DecodeLeavesTheRest :
    (∃ t, exec .decode stC = .next t ∧ t.cur.status = 0#2) ∧
    ∃ t, exec .decode (stC.setCur (stC.cur.setFrmLen 0)) = .next t ∧ t.cur.status ≠ 0#2 :=
  ⟨⟨_, rfl, by decide⟩, _, rfl, by decide⟩

theorem witness_TamperedPayloadByteIsRejected :
    FrameAt stC.cur.frm packetC ∧ 17 + packetC.len.toNat ≤ stC.cur.frmLen ∧ packetC.Valid ∧
    0 < packetC.payload.length ∧ packetC.payload[0]? ≠ some 0x44#8 :=
  ⟨witness_frame, by decide, witness_valid, by decide, by decide⟩

theorem witness_TamperedHeaderBytesAreClassified :
    FrameAt stC.cur.frm packetC ∧ 17 + packetC.len.toNat ≤ stC.cur.frmLen ∧ packetC.Valid ∧
    stC.cur.frm.read 2 ≠ some 1#8 ∧ stC.cur.frm.read 15 ≠ some 1#8 :=
  ⟨witness_frame, by decide, witness_valid, by decide, by decide⟩

/-- T3.3: the payload 41 42 and its frame with 42 41. -/
theorem witness_ReorderedPayloadIsAccepted :
    let p : Packet := { origin := 0, dest := 3, seqid := 1, csum := 0x89, len := 2, payload := [0x41, 0x42] }
    let s := st 0 0 0 0 0 [] [0, 0, 0, 0, 0, 0, 3, 0, 0, 0, 1, 0, 0, 0, 0x89, 0, 2, 0x42, 0x41]
    p.Valid ∧ p.payload.Perm [0x42, 0x41] ∧ FrameAt s.cur.frm { p with payload := [0x42, 0x41] } ∧
    17 + p.len.toNat ≤ s.cur.frmLen :=
  ⟨by unfold Packet.Valid; decide, List.Perm.swap .., by unfold FrameAt; decide, by decide⟩

theorem witness_NewBuildsAnOutboundPacket : stC.cur.PayloadIs [0x43] ∧ State.reset.cur.PayloadIs [] :=
  ⟨witness_payload, witness_payload_empty⟩

theorem witness_NewLeavesTheRest : ∃ t, exec .new stC = .next t := ⟨_, rfl⟩

theorem witness_SeqWrapsToZero :
    (stC.setSeq 0xFFFFFFFF).cur.PayloadIs [0x43] ∧ (stC.setSeq 0xFFFFFFFF).seq = 0xFFFFFFFF#32 := ⟨witness_payload, rfl⟩

theorem witness_OnlyNewReadsOrWritesSeq : HostAction.issue 0b00#2 ≠ .issue 0b11#2 ∧ HostAction.read .len ≠ .issue 0b11#2 := by
  decide

/-- Two instances, each about to issue NEW (95_test_vectors.md P6). -/
def stTwo : State := { State.resetOf 1 272 with input := [⟨0, .issue 0b11#2⟩, ⟨1, .issue 0b11#2⟩] }

theorem witness_SeqCountsNewCommands : ∃ t, run 2 stTwo = .next t ∧ newCount (stTwo.input.take 2) = 2 := ⟨_, rfl, rfl⟩

theorem witness_SequenceIdsDoNotRepeat :
    ∃ t u v, stTwo.input = ⟨0, .issue 0b11#2⟩ :: [⟨1, .issue 0b11#2⟩] ∧ step stTwo = .next t ∧ run 0 t = .next u ∧
      u.input = ⟨1, .issue 0b11#2⟩ :: [] ∧ step u = .next v ∧
      newCount (([⟨1, .issue 0b11#2⟩] : List Event).take 0) < 4294967295 ∧
      t.seq.toNat + newCount (([⟨1, .issue 0b11#2⟩] : List Event).take 0) + 1 < 4294967296 :=
  ⟨_, _, _, rfl, rfl, rfl, rfl, rfl, by decide, by decide⟩

theorem witness_DecodeUndoesEncode :
    stC.cur.PayloadIs [0x43] ∧ (stC.cur.packet [0x43]).Valid ∧
    ¬ ((stC.setCur (stC.cur.setCsum 0)).cur.packet [0x43]).Valid :=
  ⟨witness_payload, by unfold Packet.Valid; decide, by unfold Packet.Valid; decide⟩

theorem witness_SentPacketIsDelivered : stC.cur.PayloadIs [0x43] := witness_payload

theorem witness_RepeatingACommandChangesNothing :
    (∃ t, exec .csum stC = .next t) ∧ (∃ t, exec .encode stC = .next t) ∧ ∃ t, exec .decode stC = .next t :=
  ⟨⟨_, rfl⟩, ⟨_, rfl⟩, _, rfl⟩

/-- The clauses for DECODE of a whole frame: `witness_goodSum`, `witness_badSum`. Those that leave ACC: ENCODE, DECODE of a
frame one byte short, a host write and a host read. -/
theorem witness_AccumulatorHoldsTheSum :
    stC.cur.PayloadIs [0x43] ∧
    (∃ (s : State) (p : Packet), FrameAt s.cur.frm p ∧ 17 + p.len.toNat ≤ s.cur.frmLen ∧ p.Valid) ∧
    (∃ (s : State) (p : Packet), FrameAt s.cur.frm p ∧ 17 + p.len.toNat ≤ s.cur.frmLen ∧ ¬ p.Valid) ∧
    (∃ t, exec .encode stC = .next t) ∧
    (∃ t, exec .decode (stC.setCur (stC.cur.setFrmLen 17)) = .next t ∧ t.cur.status = 1#2) ∧
    (∃ t, perform (.write (.origin 7)) stC = .next t) ∧ ∃ t, perform (.read .origin) stC = .next t :=
  ⟨witness_payload, ⟨_, _, witness_goodSum.1⟩, ⟨_, _, witness_badSum⟩, ⟨_, rfl⟩, ⟨_, rfl, rfl⟩, ⟨_, rfl⟩, _, rfl⟩

theorem witness_StatusIsOverwrittenAndNeverRead : ∃ t, exec .encode stC = .next t := ⟨_, rfl⟩

theorem witness_AnErrorReplacesOnlyStatus : ∃ t, exec .decode State.reset = .next t ∧ t.cur.status ≠ 0#2 :=
  ⟨_, rfl, by decide⟩

theorem witness_CommandsStopOnlyOnUnwrittenBytes :
    (∃ a < (stC.setCur (stC.cur.setLen 2)).cur.len.toNat, (stC.setCur (stC.cur.setLen 2)).cur.pay.read a = none) ∧
    exec .csum (stC.setCur (stC.cur.setLen 2)) = .refused (.noValue .pay) := ⟨⟨1, by decide⟩, rfl⟩

/-- Two states that differ in registers that hold no value, about to issue DECODE with a FRMLEN that is held. -/
theorem witness_ResetValuesAreUnobservable :
    let s := (State.reset.setCur (State.reset.cur.setFrmLen 0)).setInput [⟨0, .issue 0b10#2⟩]
    let t := s.setCur { s.cur with dest := 5, status := 2 }
    s.AgreeHeld t ∧ s ≠ t ∧ s.readsHeld = true := by
  refine ⟨⟨rfl, rfl, rfl, ?_, .nil, .nil⟩, by decide, by decide⟩
  unfold Codec.AgreeHeld
  decide

theorem witness_HostWritesAndReadsRegisters : 272 ≤ State.reset.frmCap ∧ 0 ≤ State.reset.frmCap := by decide

theorem witness_HostAccessesStopByName :
    255 ≤ 255 ∧ State.reset.frmCap ≤ 272 ∧ (254 < 255 ∧ State.reset.cur.pay.read 254 = none) ∧
    (271 < State.reset.frmCap ∧ State.reset.cur.frm.read 271 = none) ∧ State.reset.frmCap < 273 := by decide

theorem witness_LoadPayPresentsThePayload :
    loadPay [0x43] = some [.write (.pay 0 0x43), .write (.len 1)] ∧
    (State.reset.setInput [⟨0, .write (.pay 0 0x43)⟩, ⟨0, .write (.len 1)⟩]).input =
      [HostAction.write (.pay 0 0x43), .write (.len 1)].map (fun a => ⟨State.reset.before.length, a⟩) ++ [] ∧
    loadPay (List.replicate 256 0) = none := 
  ⟨rfl, rfl, if_neg (by rw [List.length_replicate]; decide)⟩

theorem witness_LoadFrmPresentsTheFrame :
    ([0x43] : List Byte).length ≤ State.reset.frmCap ∧
    (State.reset.setInput [⟨0, .write (.frm 0 0x43)⟩, ⟨0, .write (.frmLen 1)⟩]).input =
      (loadFrm [0x43]).map (fun a => ⟨State.reset.before.length, a⟩) ++ [] := ⟨by decide, rfl⟩

theorem witness_OtherInstancesAreUntouched :
    stTwo.input = ⟨0, .issue 0b11#2⟩ :: [⟨1, .issue 0b11#2⟩] ∧ ∃ t, step stTwo = .next t := ⟨rfl, _, rfl⟩

theorem witness_CommandsDependOnTheirInstanceAlone :
    (stC.setInput [⟨0, .issue 0#2⟩]).cur = stC.cur ∧ (stC.setInput [⟨0, .issue 0#2⟩]).seq = stC.seq ∧
    ∃ t, exec .new stC = .next t := ⟨rfl, rfl, _, rfl⟩

end Sys2Proof.Tests
end

section
/-! SUPPORT. The invariant in the words of the spec, and that reset meets it. -/

namespace Sys2Proof.Machine

/-! ### The invariant, taken apart -/

theorem Codec.inv_iff {frmCap : Nat} {c : Codec} :
    c.inv frmCap = true ↔ c.pay.wf = true ∧ c.pay.below payCap = true ∧ c.frm.wf = true ∧ c.frm.below frmCap = true ∧
      c.frmLen ≤ frmCap ∧ c.status ≠ 3#2 := by
  simp only [Codec.inv, Bool.and_eq_true, decide_eq_true_eq, and_assoc]

theorem State.inv_iff {s : State} :
    s.inv = true ↔ frmCapDefault ≤ s.frmCap ∧ ∀ c ∈ s.insts, c.inv s.frmCap = true := by
  simp only [State.inv, Bool.and_eq_true, decide_eq_true_eq, List.all_eq_true]

/-! ### Reset -/

@[simp] theorem resetOf_frmCap (extra frmCap : Nat) : (State.resetOf extra frmCap).frmCap = frmCap := rfl

/-- 60_exceptions.md R152: all instances leave reset together. -/
@[simp] theorem resetOf_insts (extra frmCap : Nat) :
    (State.resetOf extra frmCap).insts = List.replicate (extra + 1) Codec.reset := rfl

/-- The buffers list nothing (10_state.md R34); FRMLEN and STATUS are the model's zeros (log 1), so no bound on FRM_CAP is
needed here. -/
theorem Codec.reset_inv (frmCap : Nat) : Codec.reset.inv frmCap = true :=
  Codec.inv_iff.2 ⟨rfl, rfl, rfl, rfl, Nat.zero_le frmCap, by decide⟩

theorem State.resetOf_inv (extra : Nat) {frmCap : Nat} (hcap : frmCapDefault ≤ frmCap) :
    (State.resetOf extra frmCap).inv = true := by
  refine State.inv_iff.2 ⟨hcap, fun c hc => ?_⟩
  rw [resetOf_insts] at hc
  rw [List.eq_of_mem_replicate hc]
  exact Codec.reset_inv frmCap

/-- Settles O9: every instance leaves reset as `Codec.reset`, which meets its invariant at every FRM_CAP; the default
machine is the case N_INST = 1, FRM_CAP = 272. -/
theorem resetMeetsTheInvariant : Obligations.ResetMeetsTheInvariant :=
  ⟨State.resetOf_inv 0 le_rfl, fun extra _ hcap => State.resetOf_inv extra hcap⟩

end Sys2Proof.Machine
end

section
/-! SUPPORT. A command as a function of the instance it runs on and the id that NEW would give (60_exceptions.md R153), and
that `exec` is this function put back into the machine. What a command does not read is then absent from the function's
text. Then, which host accesses are stopped. -/

namespace Sys2Proof.Machine

/-- What DECODE finds in the first `n` bytes of `m` (42_decode.md R120 steps 1 to 4): `none` where a byte it reads holds no
value, `some none` where the frame is too short, `some (some p)` where it is whole. -/
def scanFrame (m : Memory) (n : Nat) : Option (Option Packet) :=
  if headerShort n then some none
  else (frameLength m).bind fun l => if bodyShort n l then some none else (readFrame m l).map some

/-- The instance after a DECODE that found `f` (42_decode.md R120 steps 5 and 6). -/
def Codec.decoded (c : Codec) (f : Option Packet) : Codec :=
  f.elim (c.setStatus 1#2) fun p =>
    if trunc16 p.sum = p.csum then ((c.setAcc p.sum).loadPacket p).setStatus 0#2 else (c.setAcc p.sum).setStatus 2#2

/-- The instance after command `i`, `newId` being the id NEW would give; none where the command is refused. -/
def Codec.commanded (c : Codec) (i : Instr) (newId : U32) : Option Codec :=
  match i with
  | .csum => c.payload.map fun p => (c.storeChecksum p).setStatus 0#2
  | .encode =>
    c.payload.map fun p => ((c.setFrm (c.marshal p)).setFrmLen (hdrLen + c.len.toNat)).setStatus 0#2
  | .decode => (scanFrame c.frm c.frmLen).map c.decoded
  | .new => c.payload.map fun p => (((c.setOrigin originLocal).setSeqid newId).storeChecksum p).setStatus 0#2

/-- The buffer in which a command reads the bytes that can refuse it (30_encoding.md R72). -/
def sourceBuffer : Instr → Buffer
  | .csum => .pay
  | .encode => .pay
  | .decode => .frm
  | .new => .pay

/-- SEQ after a command that completes (10_state.md R20). -/
def seqAfter (i : Instr) (seq : U32) : U32 := if i = .new then nextSeq seq else seq

/-- The machine's answer to command `i`, given the instance it leaves. -/
def State.answerTo (s : State) (i : Instr) : Option Codec → Host.Outcome State Fault Refusal
  | none => .refused (.noValue (sourceBuffer i))
  | some c => .next ((s.setSeq (seqAfter i s.seq)).setCur c)

theorem checkAndLoad_eq (s : State) (p : Packet) : checkAndLoad s p = .next (s.setCur (s.cur.decoded (some p))) := by
  by_cases hc : trunc16 p.sum = p.csum
  · simp [checkAndLoad, Codec.decoded, hc, State.complete_eq]
  · simp [checkAndLoad, Codec.decoded, hc, State.raise_invalidChecksum]

theorem exec_decode_eq (s : State) :
    exec .decode s = s.answerTo .decode ((scanFrame s.cur.frm s.cur.frmLen).map s.cur.decoded) := by
  simp only [exec, execDecode, scanFrame]
  split_ifs with h1
  · rfl
  · cases frameLength s.cur.frm with
    | none => rfl
    | some l =>
      simp only [Option.bind_some]
      split_ifs with h2
      · rfl
      · cases readFrame s.cur.frm l with
        | none => rfl
        | some p => exact checkAndLoad_eq s p

/-- 60_exceptions.md R153: a command reads and writes SEQ and the instance it runs on, and nothing else. -/
theorem exec_eq (i : Instr) (s : State) : exec i s = s.answerTo i (s.cur.commanded i (nextSeq s.seq)) := by
  cases i with
  | csum => simp only [exec, execCsum, Codec.commanded]; cases s.cur.payload <;> rfl
  | encode => simp only [exec, execEncode, Codec.commanded]; cases s.cur.payload <;> rfl
  | decode => exact exec_decode_eq s
  | new => simp only [exec, execNew, Codec.commanded]; cases s.cur.payload <;> rfl

theorem Codec.commanded_newId {i : Instr} (hi : i ≠ .new) (c : Codec) (q q' : U32) :
    c.commanded i q = c.commanded i q' := by
  cases i with
  | csum => rfl
  | encode => rfl
  | decode => rfl
  | new => exact absurd rfl hi

theorem seqAfter_of_ne_new {i : Instr} (hi : i ≠ .new) (seq : U32) : seqAfter i seq = seq := if_neg hi

theorem scanFrame_eq_whole {c : Codec} {p : Packet} (h : c.holdsFrame p) :
    scanFrame c.frm c.frmLen = some (some p) := by
  obtain ⟨hfit, hlen, hread⟩ := h
  have h1 : headerShort c.frmLen = false := decide_eq_false (by omega)
  have h2 : bodyShort c.frmLen p.len = false := decide_eq_false (by omega)
  simp [scanFrame, h1, h2, hlen, hread]

/-! ### Host accesses: which are stopped (10_state.md R25 to R27) -/

theorem hostWrite_of_wellFormed {w : HostWrite} {s : State} (h : w.wellFormed s.frmCap = true) :
    hostWrite w s = .next (s.setCur (s.cur.written w)) := by
  cases w with
  | frmLen n => exact if_pos (of_decide_eq_true h)
  | pay i b => exact if_pos (of_decide_eq_true h)
  | frm i b => exact if_pos (of_decide_eq_true h)
  | origin => rfl
  | dest => rfl
  | seqid => rfl
  | csum => rfl
  | len => rfl

/-- Whether and how a host write is stopped is decided by FRM_CAP, and by nothing else of the machine (10_state.md R25 to
R27). -/
theorem hostWrite_uniform (w : HostWrite) (cap : Nat) :
    (∀ s : State, s.frmCap = cap → hostWrite w s = .next (s.setCur (s.cur.written w))) ∨
    (∃ r, ∀ s : State, s.frmCap = cap → hostWrite w s = .fault r) ∨
    ∃ r, ∀ s : State, s.frmCap = cap → hostWrite w s = .refused r := by
  cases w with
  | frmLen n =>
    by_cases h : n ≤ cap
    · exact .inl fun s hs => if_pos (hs ▸ h)
    · exact .inr (.inr ⟨_, fun s hs => if_neg (hs ▸ h)⟩)
  | pay i b =>
    by_cases h : i < payCap
    · exact .inl fun s _ => if_pos h
    · exact .inr (.inl ⟨_, fun s _ => if_neg h⟩)
  | frm i b =>
    by_cases h : i < cap
    · exact .inl fun s hs => if_pos (hs ▸ h)
    · exact .inr (.inl ⟨_, fun s hs => if_neg (hs ▸ h)⟩)
  | origin => exact .inl fun _ _ => rfl
  | dest => exact .inl fun _ _ => rfl
  | seqid => exact .inl fun _ _ => rfl
  | csum => exact .inl fun _ _ => rfl
  | len => exact .inl fun _ _ => rfl

theorem hostRead_pay_of_lt {i : Nat} (h : i < payCap) (s : State) :
    hostRead (.pay i) s = hostReadByte .pay (s.cur.pay.read i) s := if_pos h

theorem hostRead_pay_of_ge {i : Nat} (h : payCap ≤ i) (s : State) :
    hostRead (.pay i) s = .fault (.noSuchByte .pay i) := if_neg (Nat.not_lt.2 h)

theorem hostRead_frm_of_lt {i : Nat} {s : State} (h : i < s.frmCap) :
    hostRead (.frm i) s = hostReadByte .frm (s.cur.frm.read i) s := if_pos h

theorem hostRead_frm_of_ge {i : Nat} {s : State} (h : s.frmCap ≤ i) :
    hostRead (.frm i) s = .fault (.noSuchByte .frm i) := if_neg (Nat.not_lt.2 h)

end Sys2Proof.Machine
end

section
/-! SUPPORT. What an action leaves around the instance it runs on, and that it keeps the invariant of that instance
(10_state.md R25 to R29, 60_exceptions.md R153). -/

namespace Sys2Proof.Machine

/-! ### What stays around an action -/

theorem exec_sameAround {i : Instr} {s t : State} (h : exec i s = .next t) : s.SameAround t := by
  rw [exec_eq] at h
  cases hc : s.cur.commanded i (nextSeq s.seq) with
  | none => rw [hc] at h; cases h
  | some c => rw [hc] at h; cases h; exact ⟨rfl, rfl, rfl, rfl⟩

theorem perform_sameAround {a : HostAction} {s t : State} (h : perform a s = .next t) : s.SameAround t := by
  cases a with
  | write w => obtain ⟨_, rfl⟩ := hostWrite_cases h; exact ⟨rfl, rfl, rfl, rfl⟩
  | read r => obtain ⟨_, _, rfl⟩ := hostRead_cases h; exact ⟨rfl, rfl, rfl, rfl⟩
  | issue op => exact exec_sameAround h

theorem State.SameAround.insts_eq_set {s t : State} (h : s.SameAround t) :
    t.insts = s.insts.set s.before.length t.cur := by
  obtain ⟨hb, ha, _, _⟩ := h
  simp [State.insts, hb, ha]

theorem length_before_of_select {s t : State} {k : Nat} (h : s.select k = some t) : t.before.length = k := by
  obtain ⟨_, hk, hb, -⟩ := select_eq_some h
  have : k < s.insts.length := (List.getElem?_eq_some_iff.1 hk).1
  rw [hb, List.length_take]
  omega

/-- A step that answers a next state is idle, or performs the oldest event on a state in which only the input and the
address have moved (log 5, log 11). -/
theorem step_performs {s t : State} (h : step s = .next t) :
    (s.input = [] ∧ t = s) ∨
    ∃ e s', s.input = e :: s'.input ∧ s'.insts = s.insts ∧ s'.before.length = e.inst ∧ s'.seq = s.seq ∧
      s'.frmCap = s.frmCap ∧ perform e.action s' = .next t := by
  rcases step_cases h with hidle | ⟨e, es, s', hin, hsel, hperf⟩
  · exact .inl hidle
  · obtain ⟨hinsts, -, -, -, hseq, hcap, hinput⟩ := select_eq_some hsel
    exact .inr ⟨e, s', by rw [hin, hinput]; rfl, hinsts, length_before_of_select hsel, hseq, hcap, hperf⟩

/-- Settles O52: the action leaves everything around the instance addressed, so the list of instances is the old one with
one entry set. -/
theorem otherInstancesAreUntouched : Obligations.OtherInstancesAreUntouched := by
  intro s t e es hin hstep
  rcases step_performs hstep with ⟨hnil, -⟩ | ⟨e', s', hin', hinsts, hpos, -, hcap, hperf⟩
  · rw [hin] at hnil; cases hnil
  · rw [hin] at hin'
    cases hin'
    have haround := perform_sameAround hperf
    have hset : t.insts = s.insts.set e.inst t.cur := by rw [haround.insts_eq_set, hpos, hinsts]
    obtain ⟨hb, -, hcap', hinput⟩ := haround
    exact ⟨hinput, by rw [hb, hpos], by rw [hset, List.length_set], hcap'.trans hcap,
      fun k hk => by rw [hset, List.getElem?_set_ne (Ne.symm hk)]⟩

/-! ### The invariant -/

theorem Codec.inv_setStatus {n : Nat} {c : Codec} (h : c.inv n = true) {v : BitVec 2} (hv : v ≠ 3#2) :
    (c.setStatus v).inv n = true := by
  obtain ⟨hp, hpb, hf, hfb, hl, -⟩ := Codec.inv_iff.1 h
  exact Codec.inv_iff.2 ⟨hp, hpb, hf, hfb, hl, hv⟩

theorem Codec.inv_setFrmLen {n : Nat} {c : Codec} (h : c.inv n = true) {k : Nat} (hk : k ≤ n) :
    (c.setFrmLen k).inv n = true := by
  obtain ⟨hp, hpb, hf, hfb, -, hs⟩ := Codec.inv_iff.1 h
  exact Codec.inv_iff.2 ⟨hp, hpb, hf, hfb, hk, hs⟩

theorem Codec.inv_setPay {n : Nat} {c : Codec} (h : c.inv n = true) {m : Memory} (hw : m.wf = true)
    (hb : m.below payCap = true) : (c.setPay m).inv n = true := by
  obtain ⟨-, -, hf, hfb, hl, hs⟩ := Codec.inv_iff.1 h
  exact Codec.inv_iff.2 ⟨hw, hb, hf, hfb, hl, hs⟩

theorem Codec.inv_setFrm {n : Nat} {c : Codec} (h : c.inv n = true) {m : Memory} (hw : m.wf = true)
    (hb : m.below n = true) : (c.setFrm m).inv n = true := by
  obtain ⟨hp, hpb, -, -, hl, hs⟩ := Codec.inv_iff.1 h
  exact Codec.inv_iff.2 ⟨hp, hpb, hw, hb, hl, hs⟩

/-- A host write of something that exists keeps the invariant (10_state.md R25 to R27). -/
theorem Codec.inv_written {n : Nat} {c : Codec} (h : c.inv n = true) {w : HostWrite} (hw : w.wellFormed n = true) :
    (c.written w).inv n = true := by
  obtain ⟨hp, hpb, hf, hfb, -, -⟩ := Codec.inv_iff.1 h
  cases w with
  | frmLen k => exact Codec.inv_setFrmLen h (of_decide_eq_true hw)
  | pay i b => exact Codec.inv_setPay h (Memory.wf_write hp i b) (Memory.below_write hpb (of_decide_eq_true hw) b)
  | frm i b => exact Codec.inv_setFrm h (Memory.wf_write hf i b) (Memory.below_write hfb (of_decide_eq_true hw) b)
  | origin => exact h
  | dest => exact h
  | seqid => exact h
  | csum => exact h
  | len => exact h

/-- ENCODE: a frame has at most 272 bytes, and FRM_CAP is no less (00_scope.md R7). -/
theorem Codec.inv_marshalled {n : Nat} {c : Codec} (h : c.inv n = true) (hn : frmCapDefault ≤ n) {p : List Byte}
    (hp : c.payload = some p) :
    ((c.setFrm (c.marshal p)).setFrmLen (hdrLen + c.len.toNat)).inv n = true := by
  obtain ⟨-, -, hf, hfb, -, -⟩ := Codec.inv_iff.1 h
  have hlen : p.length = c.len.toNat := (payload_eq_some_iff.1 hp).1
  have hl : c.len.toNat < 256 := c.len.isLt
  have hfit : 17 + c.len.toNat ≤ n := by unfold frmCapDefault at hn; omega
  exact Codec.inv_setFrmLen
    (Codec.inv_setFrm h (Codec.marshal_wf hf p) (Codec.marshal_below hfb (by rw [hlen]; exact hfit))) hfit

/-- DECODE: a payload has at most 255 bytes, the size of PAY (10_state.md R25). -/
theorem Codec.inv_loadPacket {n : Nat} {c : Codec} (h : c.inv n = true) {p : Packet}
    (hp : p.payload.length = p.len.toNat) : (c.loadPacket p).inv n = true := by
  obtain ⟨hw, hb, -⟩ := Codec.inv_iff.1 h
  have hl : p.len.toNat < 256 := p.len.isLt
  exact Codec.inv_setPay (c := ((((c.setOrigin p.origin).setDest p.dest).setSeqid p.seqid).setCsum p.csum).setLen p.len) h
    (writeBytes_wf hw 0 p.payload) (writeBytes_below hb (by unfold payCap; omega))

theorem exec_keeps_inv {i : Instr} {s t : State} (hcap : frmCapDefault ≤ s.frmCap) (hc : s.cur.inv s.frmCap = true)
    (h : exec i s = .next t) : t.cur.inv s.frmCap = true := by
  cases i with
  | csum =>
    obtain ⟨p, -, rfl⟩ := exec_csum_next h
    exact Codec.inv_setStatus (c := s.cur.storeChecksum p) hc (by decide)
  | encode =>
    obtain ⟨p, hp, rfl⟩ := exec_encode_next h
    exact Codec.inv_setStatus (Codec.inv_marshalled hc hcap hp) (by decide)
  | decode =>
    rcases exec_decode_next h with ⟨-, rfl⟩ | ⟨p, -, -, rfl⟩ | ⟨p, hf, -, rfl⟩
    · exact Codec.inv_setStatus hc (by decide)
    · exact Codec.inv_setStatus (c := s.cur.setAcc p.sum) hc (by decide)
    · obtain ⟨⟨-, -, -, -, -, hlen, -⟩, -⟩ := holdsFrame_iff.1 hf
      exact Codec.inv_setStatus (Codec.inv_loadPacket (c := s.cur.setAcc p.sum) hc hlen) (by decide)
  | new =>
    obtain ⟨p, -, rfl⟩ := exec_new_next h
    exact Codec.inv_setStatus
      (c := ((s.cur.setOrigin originLocal).setSeqid (nextSeq s.seq)).storeChecksum p) hc (by decide)

theorem perform_keeps_inv {a : HostAction} {s t : State} (hcap : frmCapDefault ≤ s.frmCap)
    (hc : s.cur.inv s.frmCap = true) (h : perform a s = .next t) : t.cur.inv s.frmCap = true := by
  cases a with
  | write w => obtain ⟨hw, rfl⟩ := hostWrite_cases h; exact Codec.inv_written hc hw
  | read r => obtain ⟨-, n, rfl⟩ := hostRead_cases h; exact hc
  | issue op => exact exec_keeps_inv hcap hc h

/-- Settles O10: the action keeps the invariant of the instance addressed, and no other instance changes. -/
theorem everyStepKeepsTheInvariant : Obligations.EveryStepKeepsTheInvariant := by
  intro s t hinv hstep
  rcases step_performs hstep with ⟨-, rfl⟩ | ⟨e, s', -, hinsts, -, -, hcap', hperf⟩
  · exact hinv
  · obtain ⟨hcap, hall⟩ := State.inv_iff.1 hinv
    rw [← hcap'] at hcap
    rw [← hcap', ← hinsts] at hall
    have hcur : s'.cur.inv s'.frmCap = true := hall _ (by simp [State.insts])
    have hset := (perform_sameAround hperf).insts_eq_set
    obtain ⟨-, -, hcapT, -⟩ := perform_sameAround hperf
    refine State.inv_iff.2 ⟨hcapT ▸ hcap, fun c hc => ?_⟩
    rw [hset] at hc
    rw [hcapT]
    rcases List.mem_or_eq_of_mem_set hc with hc | rfl
    · exact hall c hc
    · exact perform_keeps_inv hcap hcur hperf

end Sys2Proof.Machine
end

section
/-! SUPPORT. SEQ: NEW alone reads and writes it, so that along a run it counts the NEW commands (10_state.md R20, R21). -/

namespace Sys2Proof.Machine

theorem hostWrite_setSeq (w : HostWrite) (s : State) (v : U32) :
    hostWrite w (s.setSeq v) = mapNext (fun t => t.setSeq v) (hostWrite w s) := by
  rcases hostWrite_uniform w s.frmCap with h | ⟨r, h⟩ | ⟨r, h⟩ <;> rw [h s rfl, h (s.setSeq v) rfl] <;> rfl

theorem hostReadByte_setSeq (buf : Buffer) (b : Option Byte) (s : State) (v : U32) :
    hostReadByte buf b (s.setSeq v) = mapNext (fun t => t.setSeq v) (hostReadByte buf b s) := by
  cases b <;> rfl

theorem hostRead_setSeq (r : HostRead) (s : State) (v : U32) :
    hostRead r (s.setSeq v) = mapNext (fun t => t.setSeq v) (hostRead r s) := by
  cases r with
  | pay i =>
    rcases Nat.lt_or_ge i payCap with h | h
    · rw [hostRead_pay_of_lt h, hostRead_pay_of_lt h]; exact hostReadByte_setSeq ..
    · rw [hostRead_pay_of_ge h, hostRead_pay_of_ge h]; rfl
  | frm i =>
    rcases Nat.lt_or_ge i s.frmCap with h | h
    · rw [hostRead_frm_of_lt h, hostRead_frm_of_lt (s := s.setSeq v) h]; exact hostReadByte_setSeq ..
    · rw [hostRead_frm_of_ge h, hostRead_frm_of_ge (s := s.setSeq v) h]; rfl
  | origin => rfl
  | dest => rfl
  | seqid => rfl
  | csum => rfl
  | len => rfl
  | frmLen => rfl
  | status => rfl

theorem exec_setSeq {i : Instr} (hi : i ≠ .new) (s : State) (v : U32) :
    exec i (s.setSeq v) = mapNext (fun t => t.setSeq v) (exec i s) := by
  rw [exec_eq, exec_eq, State.setSeq_cur, Codec.commanded_newId hi s.cur _ (nextSeq s.seq)]
  cases s.cur.commanded i (nextSeq s.seq) with
  | none => rfl
  | some c => simp only [State.answerTo, seqAfter_of_ne_new hi]; rfl

theorem decodeOp_eq_new_iff (op : BitVec 2) : decodeOp op = .new ↔ op = 0b11#2 := by
  revert op; decide

/-- Settles O37: a host access never looks at SEQ, and of the commands NEW alone uses the id offered to it. -/
theorem onlyNewReadsOrWritesSeq : Obligations.OnlyNewReadsOrWritesSeq := by
  intro a s v ha
  cases a with
  | write w => exact hostWrite_setSeq w s v
  | read r => exact hostRead_setSeq r s v
  | issue op => exact exec_setSeq (fun h => ha (by rw [(decodeOp_eq_new_iff op).1 h])) s v

/-! ### SEQ along a run -/

/-- SEQ set to the value it has is the state itself, so O37 at that value says that SEQ stays. -/
theorem perform_seq_of_ne_new {a : HostAction} {s t : State} (ha : a ≠ .issue 0b11#2) (h : perform a s = .next t) :
    t.seq = s.seq := by
  have hkeep : perform a s = mapNext (fun t => t.setSeq s.seq) (perform a s) := onlyNewReadsOrWritesSeq a s s.seq ha
  rw [h] at hkeep
  have ht : t = t.setSeq s.seq := Host.Outcome.next.inj hkeep
  rw [ht, State.setSeq_seq]

theorem perform_new_seq {s t : State} (h : perform (.issue 0b11#2) s = .next t) : t.seq = s.seq + 1 := by
  obtain ⟨p, -, rfl⟩ := exec_new_next h
  rfl

theorem newCount_cons (e : Event) (es : List Event) :
    newCount (e :: es) = (if e.action = .issue 0b11#2 then 1 else 0) + newCount es := by
  obtain ⟨k, a⟩ := e
  cases a with
  | write w => simp [newCount]
  | read r => simp [newCount]
  | issue op => simp [newCount, decodeOp_eq_new_iff]

theorem perform_seq_toNat {e : Event} {s t : State} (h : perform e.action s = .next t) :
    t.seq.toNat = (s.seq.toNat + newCount [e]) % 4294967296 := by
  rw [newCount_cons]
  by_cases ha : e.action = .issue 0b11#2
  · rw [ha] at h
    rw [perform_new_seq h, if_pos ha, BitVec.toNat_add]
    rfl
  · rw [perform_seq_of_ne_new ha h, if_neg ha]
    exact (Nat.mod_eq_of_lt s.seq.isLt).symm

/-- One step takes the oldest event off the input and moves SEQ by the NEW commands in it. -/
theorem step_seq {s t : State} (h : step s = .next t) :
    t.input = s.input.drop 1 ∧ t.seq.toNat = (s.seq.toNat + newCount (s.input.take 1)) % 4294967296 := by
  rcases step_performs h with ⟨hnil, rfl⟩ | ⟨e, s', hin, -, -, hseq, -, hperf⟩
  · rw [hnil]; exact ⟨rfl, (Nat.mod_eq_of_lt t.seq.isLt).symm⟩
  · obtain ⟨-, -, -, hinput⟩ := perform_sameAround hperf
    rw [hin, ← hseq]
    exact ⟨hinput, perform_seq_toNat hperf⟩

theorem newCount_append (es fs : List Event) : newCount (es ++ fs) = newCount es + newCount fs := by
  induction es with
  | nil => simp [newCount]
  | cons e es ih => rw [List.cons_append, newCount_cons, newCount_cons, ih, Nat.add_assoc]

theorem run_succ_next {n : Nat} {s t : State} (h : run (n + 1) s = .next t) :
    ∃ u, step s = .next u ∧ run n u = .next t := by
  simp only [run] at h
  split at h
  · rename_i u hu; exact ⟨u, hu, h⟩
  · cases h
  · cases h

/-- Settles O38, by induction on the number of steps. -/
theorem seqCountsNewCommands : Obligations.SeqCountsNewCommands := by
  intro n
  induction n with
  | zero =>
    intro s t h
    cases h
    exact (Nat.mod_eq_of_lt s.seq.isLt).symm
  | succ n ih =>
    intro s t h
    obtain ⟨u, hstep, hrun⟩ := run_succ_next h
    obtain ⟨hinput, hseq⟩ := step_seq hstep
    have hcount : newCount (s.input.take (n + 1)) = newCount (s.input.take 1) + newCount (u.input.take n) := by
      rw [hinput, ← newCount_append, Nat.add_comm n 1, List.take_add]
    rw [ih u t hrun, hseq, hcount, Nat.mod_add_mod, Nat.add_assoc]

end Sys2Proof.Machine
end

section
/-! SUPPORT. Two instances that agree on everything that holds a value still agree after one and the same write, and a command
that reads only registers that hold one writes the same to both (10_state.md R35). -/

namespace Sys2Proof.Machine

namespace Codec.AgreeHeld

variable {c d : Codec}

theorem setOrigin (h : c.AgreeHeld d) (v : U32) : (c.setOrigin v).AgreeHeld (d.setOrigin v) := by
  simp_all [Codec.AgreeHeld]

theorem setDest (h : c.AgreeHeld d) (v : U32) : (c.setDest v).AgreeHeld (d.setDest v) := by
  simp_all [Codec.AgreeHeld]

theorem setSeqid (h : c.AgreeHeld d) (v : U32) : (c.setSeqid v).AgreeHeld (d.setSeqid v) := by
  simp_all [Codec.AgreeHeld]

theorem setCsum (h : c.AgreeHeld d) (v : U16) : (c.setCsum v).AgreeHeld (d.setCsum v) := by
  simp_all [Codec.AgreeHeld]

theorem setLen (h : c.AgreeHeld d) (v : Byte) : (c.setLen v).AgreeHeld (d.setLen v) := by
  simp_all [Codec.AgreeHeld]

theorem setFrmLen (h : c.AgreeHeld d) (n : Nat) : (c.setFrmLen n).AgreeHeld (d.setFrmLen n) := by
  simp_all [Codec.AgreeHeld]

theorem setStatus (h : c.AgreeHeld d) (v : BitVec 2) : (c.setStatus v).AgreeHeld (d.setStatus v) := by
  simp_all [Codec.AgreeHeld]

/-- ACC is not compared (10_state.md R32). -/
theorem setAcc (h : c.AgreeHeld d) (v w : U32) : (c.setAcc v).AgreeHeld (d.setAcc w) := h

theorem setPay (h : c.AgreeHeld d) (m : Memory) : (c.setPay m).AgreeHeld (d.setPay m) := by
  simp_all [Codec.AgreeHeld]

theorem setFrm (h : c.AgreeHeld d) (m : Memory) : (c.setFrm m).AgreeHeld (d.setFrm m) := by
  simp_all [Codec.AgreeHeld]

theorem setAnswer (h : c.AgreeHeld d) (n : Nat) : (c.setAnswer n).AgreeHeld (d.setAnswer n) := by
  simp_all [Codec.AgreeHeld]

theorem pay_eq (h : c.AgreeHeld d) : c.pay = d.pay := by
  obtain ⟨-, hpay, -⟩ := h
  exact hpay

theorem frm_eq (h : c.AgreeHeld d) : c.frm = d.frm := by
  obtain ⟨-, -, hfrm, -⟩ := h
  exact hfrm

theorem written (h : c.AgreeHeld d) (w : HostWrite) : (c.written w).AgreeHeld (d.written w) := by
  cases w with
  | origin v => exact h.setOrigin v
  | dest v => exact h.setDest v
  | seqid v => exact h.setSeqid v
  | csum v => exact h.setCsum v
  | len v => exact h.setLen v
  | frmLen n => exact h.setFrmLen n
  | pay i b => rw [Codec.written, Codec.written, h.pay_eq]; exact h.setPay _
  | frm i b => rw [Codec.written, Codec.written, h.frm_eq]; exact h.setFrm _

theorem loadPacket (h : c.AgreeHeld d) (p : Packet) : (c.loadPacket p).AgreeHeld (d.loadPacket p) := by
  rw [Codec.loadPacket, Codec.loadPacket, h.pay_eq]
  exact (((((h.setOrigin _).setDest _).setSeqid _).setCsum _).setLen _).setPay _

theorem decoded (h : c.AgreeHeld d) (f : Option Packet) : (c.decoded f).AgreeHeld (d.decoded f) := by
  cases f with
  | none => exact h.setStatus _
  | some p =>
    simp only [Codec.decoded, Option.elim_some]
    split_ifs
    · exact ((h.setAcc p.sum p.sum).loadPacket p).setStatus _
    · exact (h.setAcc p.sum p.sum).setStatus _

theorem storeChecksum (h : c.AgreeHeld d) {p : List Byte} (hsum : c.packetSum p = d.packetSum p) :
    (c.storeChecksum p).AgreeHeld (d.storeChecksum p) := by
  rw [Codec.storeChecksum, Codec.storeChecksum, hsum]
  exact (h.setAcc _ _).setCsum _

theorem payload_eq (h : c.AgreeHeld d) (hlen : c.len = d.len) : c.payload = d.payload := by
  rw [Codec.payload, Codec.payload, h.pay_eq, hlen]

end Codec.AgreeHeld

/-! ### A command, an action and a step -/

theorem rel_map_map {α β : Type} {R : β → β → Prop} {f g : α → β} (h : ∀ x, R (f x) (g x)) (o : Option α) :
    Option.Rel R (o.map f) (o.map g) := by
  cases o with
  | none => exact .none
  | some x => exact .some (h x)

/-- The registers that a command reads are those that `commandReadsHeld` asks for. -/
theorem commanded_agree {i : Instr} {c d : Codec} (h : c.AgreeHeld d) (hr : commandReadsHeld i c = true) (q : U32) :
    Option.Rel Codec.AgreeHeld (c.commanded i q) (d.commanded i q) := by
  obtain ⟨-, -, hfrm, -, horigin, hdest, hseqid, hcsum, hlen, hfrmLen, -⟩ := id h
  cases i with
  | csum =>
    simp only [commandReadsHeld, Bool.and_eq_true] at hr
    obtain ⟨⟨⟨ho, hd⟩, hs⟩, hl⟩ := hr
    simp only [Codec.commanded, h.payload_eq (hlen hl)]
    refine rel_map_map (fun p => (h.storeChecksum ?_).setStatus _) _
    simp only [Codec.packetSum, horigin ho, hdest hd, hseqid hs, hlen hl]
  | encode =>
    simp only [commandReadsHeld, Bool.and_eq_true] at hr
    obtain ⟨⟨⟨⟨ho, hd⟩, hs⟩, hc⟩, hl⟩ := hr
    simp only [Codec.commanded, h.payload_eq (hlen hl), Codec.marshal, hfrm, horigin ho, hdest hd, hseqid hs, hcsum hc,
      hlen hl]
    exact rel_map_map (fun p => ((h.setFrm _).setFrmLen _).setStatus _) _
  | decode =>
    simp only [Codec.commanded, hfrm, hfrmLen hr]
    exact rel_map_map h.decoded _
  | new =>
    simp only [commandReadsHeld, Bool.and_eq_true] at hr
    obtain ⟨hd, hl⟩ := hr
    simp only [Codec.commanded, h.payload_eq (hlen hl)]
    refine rel_map_map (fun p => (((h.setOrigin _).setSeqid _).storeChecksum ?_).setStatus _) _
    simp only [Codec.packetSum, Codec.setSeqid_origin, Codec.setSeqid_dest, Codec.setSeqid_seqid, Codec.setSeqid_len,
      Codec.setOrigin_origin, Codec.setOrigin_dest, Codec.setOrigin_len, hdest hd, hlen hl]

theorem rel_getElem? {α : Type} {R : α → α → Prop} {l l' : List α} (h : List.Forall₂ R l l') (k : Nat) :
    Option.Rel R l[k]? l'[k]? := by
  induction h generalizing k with
  | nil => exact .none
  | cons hd _ ih =>
    cases k with
    | zero => exact .some hd
    | succ k => exact ih k

namespace State.AgreeHeld

variable {s t : State}

theorem cur (h : s.AgreeHeld t) : s.cur.AgreeHeld t.cur := by
  obtain ⟨-, -, -, hcur, -⟩ := h
  exact hcur

theorem frmCap_eq (h : s.AgreeHeld t) : s.frmCap = t.frmCap := by
  obtain ⟨-, hcap, -⟩ := h
  exact hcap

theorem setCur (h : s.AgreeHeld t) {c d : Codec} (hc : c.AgreeHeld d) : (s.setCur c).AgreeHeld (t.setCur d) := by
  obtain ⟨hseq, hcap, hinput, -, hbefore, hafter⟩ := h
  exact ⟨hseq, hcap, hinput, hc, hbefore, hafter⟩

theorem setSeq (h : s.AgreeHeld t) (v : U32) : (s.setSeq v).AgreeHeld (t.setSeq v) := by
  obtain ⟨-, hrest⟩ := h
  exact ⟨rfl, hrest⟩

theorem setInput (h : s.AgreeHeld t) (es : List Event) : (s.setInput es).AgreeHeld (t.setInput es) := by
  obtain ⟨hseq, hcap, -, hrest⟩ := h
  exact ⟨hseq, hcap, rfl, hrest⟩

theorem insts (h : s.AgreeHeld t) : List.Forall₂ Codec.AgreeHeld s.insts t.insts := by
  obtain ⟨-, -, -, hcur, hbefore, hafter⟩ := h
  exact List.rel_append hbefore (.cons hcur hafter)

/-- Addressing an instance by the same number, both machines fail to or agree still. -/
theorem select (h : s.AgreeHeld t) (k : Nat) : Option.Rel State.AgreeHeld (s.select k) (t.select k) := by
  have hinsts := h.insts
  have hk := rel_getElem? hinsts k
  obtain ⟨hseq, hcap, hinput, -⟩ := h
  rw [State.select, State.select]
  generalize s.insts[k]? = o, t.insts[k]? = o' at hk ⊢
  cases hk with
  | none => exact .none
  | some hc =>
    exact .some ⟨hseq, hcap, hinput, hc, List.forall₂_take k hinsts, List.forall₂_drop (k + 1) hinsts⟩

theorem answerTo_agree (h : s.AgreeHeld t) (i : Instr) {o o' : Option Codec} (ho : Option.Rel Codec.AgreeHeld o o') :
    AgreeOutcome (s.answerTo i o) (t.answerTo i o') := by
  obtain ⟨hseq, -⟩ := id h
  cases ho with
  | none => rfl
  | some hc => simp only [State.answerTo, hseq]; exact (h.setSeq _).setCur hc

theorem exec_agree (h : s.AgreeHeld t) {i : Instr} (hr : commandReadsHeld i s.cur = true) :
    AgreeOutcome (exec i s) (exec i t) := by
  obtain ⟨hseq, -⟩ := id h
  rw [exec_eq, exec_eq, hseq]
  exact h.answerTo_agree i (commanded_agree h.cur hr _)

theorem hostWrite_agree (h : s.AgreeHeld t) (w : HostWrite) : AgreeOutcome (hostWrite w s) (hostWrite w t) := by
  rcases hostWrite_uniform w s.frmCap with hw | ⟨r, hw⟩ | ⟨r, hw⟩ <;> rw [hw s rfl, hw t h.frmCap_eq.symm]
  · exact h.setCur (h.cur.written w)
  · exact rfl
  · exact rfl

theorem hostReadByte_agree (h : s.AgreeHeld t) (buf : Buffer) (b : Option Byte) :
    AgreeOutcome (hostReadByte buf b s) (hostReadByte buf b t) := by
  cases b with
  | none => rfl
  | some v => exact h.setCur (h.cur.setAnswer _)

/-- The same value delivered to both hosts keeps the machines in agreement (log 6). -/
theorem setAnswer_agree (h : s.AgreeHeld t) {n k : Nat} (hn : n = k) :
    AgreeOutcome (.next (s.setCur (s.cur.setAnswer n))) (.next (t.setCur (t.cur.setAnswer k))) := by
  subst hn
  exact h.setCur (h.cur.setAnswer n)

theorem hostRead_agree (h : s.AgreeHeld t) {r : HostRead} (hr : r.readsHeld s.cur = true) :
    AgreeOutcome (hostRead r s) (hostRead r t) := by
  obtain ⟨-, hpay, hfrm, -, horigin, hdest, hseqid, hcsum, hlen, hfrmLen, hstatus⟩ := h.cur
  cases r with
  | origin => exact h.setAnswer_agree (congrArg _ (horigin hr))
  | dest => exact h.setAnswer_agree (congrArg _ (hdest hr))
  | seqid => exact h.setAnswer_agree (congrArg _ (hseqid hr))
  | csum => exact h.setAnswer_agree (congrArg _ (hcsum hr))
  | len => exact h.setAnswer_agree (congrArg _ (hlen hr))
  | frmLen => exact h.setAnswer_agree (hfrmLen hr)
  | status => exact h.setAnswer_agree (congrArg _ (hstatus hr))
  | pay i =>
    rcases Nat.lt_or_ge i payCap with hi | hi
    · rw [hostRead_pay_of_lt hi, hostRead_pay_of_lt hi, hpay]; exact h.hostReadByte_agree _ _
    · rw [hostRead_pay_of_ge hi, hostRead_pay_of_ge hi]; rfl
  | frm i =>
    rcases Nat.lt_or_ge i s.frmCap with hi | hi
    · rw [hostRead_frm_of_lt hi, hostRead_frm_of_lt (h.frmCap_eq ▸ hi), hfrm]; exact h.hostReadByte_agree _ _
    · rw [hostRead_frm_of_ge hi, hostRead_frm_of_ge (h.frmCap_eq ▸ hi)]; rfl

theorem perform_agree (h : s.AgreeHeld t) {a : HostAction} (hr : a.readsHeld s.cur = true) :
    AgreeOutcome (perform a s) (perform a t) := by
  cases a with
  | write w => exact h.hostWrite_agree w
  | read r => exact h.hostRead_agree hr
  | issue op => exact h.exec_agree hr

theorem runEvent_agree (h : s.AgreeHeld t) (e : Event)
    (hr : ∀ s', s.select e.inst = some s' → e.action.readsHeld s'.cur = true) :
    AgreeOutcome (runEvent e s) (runEvent e t) := by
  have hsel := h.select e.inst
  rw [runEvent, runEvent]
  generalize s.select e.inst = o, t.select e.inst = o' at hsel hr ⊢
  cases hsel with
  | none => rfl
  | some h' => exact h'.perform_agree (hr _ rfl)

end State.AgreeHeld

/-- Addressing an instance does not look at the input. -/
theorem select_setInput (s : State) (es : List Event) (k : Nat) :
    (s.setInput es).select k = (s.select k).map (·.setInput es) := by
  simp only [State.select, Option.map_map]
  rfl

/-- Once the event has left the input, the instance it names still reads only registers that hold a value. -/
theorem readsHeld_of_select {s s' : State} {e : Event} {es : List Event} (hin : s.input = e :: es)
    (hr : s.readsHeld = true) (hsel : (s.setInput es).select e.inst = some s') :
    e.action.readsHeld s'.cur = true := by
  rw [select_setInput, Option.map_eq_some_iff] at hsel
  obtain ⟨u, hu, rfl⟩ := hsel
  simpa only [State.readsHeld, hin, hu, State.setInput_cur] using hr

/-- Settles O47: both machines address the instance the event names, and there the action reads the same of both and writes
the same to both. -/
theorem resetValuesAreUnobservable : Obligations.ResetValuesAreUnobservable := by
  intro s t h hr
  obtain ⟨-, -, hinput, -⟩ := id h
  cases hs : s.input with
  | nil =>
    simp only [step, nextEvent, ← hinput, hs]
    exact h
  | cons e es =>
    simp only [step, nextEvent, ← hinput, hs]
    exact (h.setInput es).runEvent_agree e fun s' hsel => readsHeld_of_select hs hr hsel

end Sys2Proof.Machine
end

section
/-! SUPPORT. The hidden accumulator and STATUS: what commands leave in them, and that no command looks at what they held
(10_state.md R29, R32). -/

namespace Sys2Proof.Machine

/-! ### The 32-bit sum -/

theorem foldl_add_zext32_toNat (p : List Byte) (a : U32) :
    (p.foldl (fun acc b => acc + zext32 b) a).toNat = (a.toNat + (p.map BitVec.toNat).sum) % 4294967296 := by
  induction p generalizing a with
  | nil => exact (Nat.mod_eq_of_lt a.isLt).symm
  | cons b p ih =>
    have hb : b.toNat < 256 := b.isLt
    rw [List.foldl_cons, ih, List.map_cons, List.sum_cons, zext32, BitVec.toNat_add, BitVec.toNat_setWidth]
    omega

/-- 40_checksum.md R100: the accumulator is the exact sum modulo 2^32. -/
theorem accSum_toNat (o d s : U32) (l : Byte) (p : List Byte) :
    (accSum o d s l p).toNat = exactSum o d s l p % 4294967296 := by
  have hl : l.toNat < 256 := l.isLt
  rw [accSum, foldl_add_zext32_toNat, exactSum, zext32]
  simp only [zero_add, BitVec.toNat_add, BitVec.toNat_setWidth]
  omega

theorem trunc16_eq_extractLsb' (v : U32) : trunc16 v = v.extractLsb' 0 16 := by
  rw [trunc16, BitVec.setWidth_eq_extractLsb' (by decide)]

/-! ### What a command that completes leaves in ACC -/

theorem exec_csum_of_payload {s : State} {p : List Byte} (hp : s.cur.PayloadIs p) :
    exec .csum s = .next (s.setCur ((s.cur.storeChecksum p).setStatus 0#2)) := by
  rw [exec_eq, Codec.commanded, payload_eq_some_iff.2 hp]; rfl

theorem exec_new_of_payload {s : State} {p : List Byte} (hp : s.cur.PayloadIs p) :
    exec .new s = .next ((s.setSeq (nextSeq s.seq)).setCur
      ((((s.cur.setOrigin originLocal).setSeqid (nextSeq s.seq)).storeChecksum p).setStatus 0#2)) := by
  rw [exec_eq, Codec.commanded, payload_eq_some_iff.2 hp]; rfl

theorem exec_decode_of_frame {s : State} {p : Packet} (hf : s.cur.holdsFrame p) :
    exec .decode s = .next (s.setCur (s.cur.decoded (some p))) := by
  rw [exec_eq, Codec.commanded, scanFrame_eq_whole hf]; rfl

theorem Codec.decoded_of_sum_eq {p : Packet} (hc : trunc16 p.sum = p.csum) (c : Codec) :
    c.decoded (some p) = ((c.setAcc p.sum).loadPacket p).setStatus 0#2 := if_pos hc

theorem Codec.decoded_of_sum_ne {p : Packet} (hc : trunc16 p.sum ≠ p.csum) (c : Codec) :
    c.decoded (some p) = (c.setAcc p.sum).setStatus 2#2 := if_neg hc

/-- CSUM and NEW store the sum of the packet they leave, whichever of its registers they wrote first. -/
theorem Codec.storeChecksum_acc_eq (c : Codec) (p : List Byte) :
    (c.storeChecksum p).acc.toNat = (c.storeChecksum p).exactSum p % 4294967296 ∧
      (c.storeChecksum p).csum = (c.storeChecksum p).acc.extractLsb' 0 16 :=
  ⟨accSum_toNat .., trunc16_eq_extractLsb' _⟩

theorem summing_command_leaves_sum {i : Instr} (hi : i = .csum ∨ i = .new) {s : State} {p : List Byte}
    (hp : s.cur.PayloadIs p) :
    ∃ t, exec i s = .next t ∧ t.cur.acc.toNat = t.cur.exactSum p % 4294967296 ∧
      t.cur.csum = t.cur.acc.extractLsb' 0 16 := by
  rcases hi with rfl | rfl
  · exact ⟨_, exec_csum_of_payload hp, Codec.storeChecksum_acc_eq s.cur p⟩
  · exact ⟨_, exec_new_of_payload hp, Codec.storeChecksum_acc_eq _ p⟩

theorem decode_of_frame_leaves_sum {s : State} {p : Packet} (hf : s.cur.holdsFrame p) :
    ∃ t, exec .decode s = .next t ∧
      t.cur.acc.toNat = exactSum p.origin p.dest p.seqid p.len p.payload % 4294967296 ∧
      (t.cur.status = 0#2 ↔ t.cur.acc.extractLsb' 0 16 = p.csum) ∧
      (t.cur.status = 2#2 ↔ t.cur.acc.extractLsb' 0 16 ≠ p.csum) := by
  refine ⟨_, exec_decode_of_frame hf, ?_⟩
  by_cases hc : trunc16 p.sum = p.csum
  · simp only [State.setCur_cur, Codec.decoded_of_sum_eq hc, Codec.setStatus_acc, Codec.loadPacket_acc, Codec.setAcc_acc,
      Codec.setStatus_status, ← trunc16_eq_extractLsb', hc]
    exact ⟨accSum_toNat .., by decide, by simp⟩
  · simp only [State.setCur_cur, Codec.decoded_of_sum_ne hc, Codec.setStatus_acc, Codec.setAcc_acc,
      Codec.setStatus_status, ← trunc16_eq_extractLsb', hc]
    exact ⟨accSum_toNat .., by decide, by simp [hc]⟩

/-! ### What leaves ACC -/

theorem exec_keeps_acc {i : Instr} {s t : State} (h : exec i s = .next t)
    (hi : i = .encode ∨ i = .decode ∧ t.cur.status = 1#2) : t.cur.acc = s.cur.acc := by
  rcases hi with rfl | ⟨rfl, hstatus⟩
  · obtain ⟨p, -, rfl⟩ := exec_encode_next h; rfl
  · rcases exec_decode_next h with ⟨-, rfl⟩ | ⟨p, -, -, rfl⟩ | ⟨p, -, -, rfl⟩
    · rfl
    · exact absurd hstatus (show (2#2 : BitVec 2) ≠ 1#2 by decide)
    · exact absurd hstatus (show (0#2 : BitVec 2) ≠ 1#2 by decide)

theorem Codec.written_acc (c : Codec) (w : HostWrite) : (c.written w).acc = c.acc := by cases w <;> rfl

theorem perform_access_keeps_acc {a : HostAction} {s t : State} (ha : ∀ op, a ≠ .issue op)
    (h : perform a s = .next t) : t.cur.acc = s.cur.acc := by
  cases a with
  | write w => obtain ⟨-, rfl⟩ := hostWrite_cases h; exact s.cur.written_acc w
  | read r => obtain ⟨-, _, rfl⟩ := hostRead_cases h; rfl
  | issue op => exact absurd rfl (ha op)

/-! ### What ACC and STATUS held has no effect -/

theorem Codec.decoded_setAcc (c : Codec) (f : Option Packet) (v w : U32) :
    ((c.setAcc v).decoded f).setAcc w = (c.decoded f).setAcc w := by
  cases f with
  | none => rfl
  | some p =>
    simp only [Codec.decoded, Option.elim_some]
    split_ifs <;> rfl

/-- ACC aside, a command makes the same of an instance whatever its ACC holds. -/
theorem Codec.commanded_setAcc (c : Codec) (i : Instr) (q v w : U32) :
    ((c.setAcc v).commanded i q).map (·.setAcc w) = (c.commanded i q).map (·.setAcc w) := by
  cases i with
  | csum => simp only [Codec.commanded, Option.map_map]; rfl
  | encode => simp only [Codec.commanded, Option.map_map]; rfl
  | decode =>
    simp only [Codec.commanded, Option.map_map]
    exact congrArg (Option.map · _) (funext fun f => c.decoded_setAcc f v w)
  | new => simp only [Codec.commanded, Option.map_map]; rfl

theorem State.mapNext_answerTo (f : Codec → Codec) (s : State) (i : Instr) (o : Option Codec) :
    mapNext (fun t => t.setCur (f t.cur)) (s.answerTo i o) = s.answerTo i (o.map f) := by
  cases o <;> rfl

theorem State.answerTo_setCur (s : State) (c : Codec) (i : Instr) (o : Option Codec) :
    (s.setCur c).answerTo i o = s.answerTo i o := by
  cases o <;> rfl

theorem exec_setAcc (i : Instr) (s : State) (v w : U32) :
    mapNext (fun t => t.setCur (t.cur.setAcc w)) (exec i (s.setCur (s.cur.setAcc v))) =
      mapNext (fun t => t.setCur (t.cur.setAcc w)) (exec i s) := by
  simp only [exec_eq, State.mapNext_answerTo (·.setAcc w), State.answerTo_setCur, State.setCur_cur, State.setCur_seq,
    Codec.commanded_setAcc]

/-- Settles O43: the sums that are formed, what forms none, and the independence from the old value, each a lemma above. -/
theorem accumulatorHoldsTheSum : Obligations.AccumulatorHoldsTheSum :=
  ⟨fun _ _ _ hi hp => summing_command_leaves_sum hi hp,
    fun _ _ hf hl => decode_of_frame_leaves_sum (holdsFrame_iff.2 ⟨hf, hl⟩),
    fun _ _ _ h hi => exec_keeps_acc h hi,
    fun _ _ _ ha h => perform_access_keeps_acc ha h,
    fun i s v => exec_setAcc i s v 0#32⟩

theorem Codec.decoded_ignores_status (c : Codec) (f : Option Packet) (v : BitVec 2) :
    Codec.decoded { c with status := v } f = c.decoded f := by
  cases f with
  | none => rfl
  | some p =>
    simp only [Codec.decoded, Option.elim_some]
    split_ifs <;> rfl

theorem Codec.commanded_ignores_status (c : Codec) (i : Instr) (q : U32) (v : BitVec 2) :
    Codec.commanded { c with status := v } i q = c.commanded i q := by
  cases i with
  | csum => rfl
  | encode => rfl
  | decode => exact congrArg (Option.map · _) (funext fun f => c.decoded_ignores_status f v)
  | new => rfl

theorem exec_ignores_status (i : Instr) (s : State) (v : BitVec 2) :
    exec i { s with cur := { s.cur with status := v } } = exec i s := by
  rw [exec_eq, exec_eq, Codec.commanded_ignores_status]
  exact s.answerTo_setCur _ i _

/-- 10_state.md R29: the STATUS a command leaves, and that the register holds a value then. -/
theorem exec_status {i : Instr} {s t : State} (h : exec i s = .next t) :
    t.cur.status ≠ 3#2 ∧ t.cur.held.status = true ∧ (i = .csum ∨ i = .encode ∨ i = .new → t.cur.status = 0#2) := by
  have h0 : (0#2 : BitVec 2) ≠ 3#2 := by decide
  cases i with
  | csum => obtain ⟨p, -, rfl⟩ := exec_csum_next h; exact ⟨h0, rfl, fun _ => rfl⟩
  | encode => obtain ⟨p, -, rfl⟩ := exec_encode_next h; exact ⟨h0, rfl, fun _ => rfl⟩
  | new => obtain ⟨p, -, rfl⟩ := exec_new_next h; exact ⟨h0, rfl, fun _ => rfl⟩
  | decode =>
    have hi : ¬ (Instr.decode = .csum ∨ Instr.decode = .encode ∨ Instr.decode = .new) := by decide
    rcases exec_decode_next h with ⟨-, rfl⟩ | ⟨p, -, -, rfl⟩ | ⟨p, -, -, rfl⟩
    · exact ⟨show (1#2 : BitVec 2) ≠ 3#2 by decide, rfl, fun h' => absurd h' hi⟩
    · exact ⟨show (2#2 : BitVec 2) ≠ 3#2 by decide, rfl, fun h' => absurd h' hi⟩
    · exact ⟨h0, rfl, fun h' => absurd h' hi⟩

/-- Settles O44. -/
theorem statusIsOverwrittenAndNeverRead : Obligations.StatusIsOverwrittenAndNeverRead :=
  ⟨exec_ignores_status, fun _ _ _ h => exec_status h⟩

/-! ### Where a command stops -/

theorem commanded_eq_none_iff {i : Instr} (hi : i ≠ .decode) {c : Codec} {q : U32} :
    c.commanded i q = none ↔ ∃ a < c.len.toNat, c.pay.read a = none := by
  rw [← payload_eq_none_iff]
  cases i with
  | csum => exact Option.map_eq_none_iff
  | encode => exact Option.map_eq_none_iff
  | decode => exact absurd rfl hi
  | new => exact Option.map_eq_none_iff

theorem sourceBuffer_of_ne_decode {i : Instr} (hi : i ≠ .decode) : sourceBuffer i = .pay := by
  cases i with
  | decode => exact absurd rfl hi
  | csum => rfl
  | encode => rfl
  | new => rfl

theorem answerTo_refused_iff {s : State} {i : Instr} {o : Option Codec} :
    s.answerTo i o = .refused (.noValue (sourceBuffer i)) ↔ o = none := by
  cases o <;> simp [State.answerTo]

/-- Settles O46: a command is refused exactly when its function has no value, which for the three that read PAY is an
unwritten payload byte. -/
theorem commandsStopOnlyOnUnwrittenBytes : Obligations.CommandsStopOnlyOnUnwrittenBytes := by
  refine ⟨fun i s hi => ?_, fun i s => ?_⟩
  · have hne : i ≠ .decode := by rcases hi with rfl | rfl | rfl <;> decide
    rw [exec_eq, ← sourceBuffer_of_ne_decode hne, answerTo_refused_iff, commanded_eq_none_iff hne]
  · rw [exec_eq]
    cases s.cur.commanded i (nextSeq s.seq) with
    | none => exact .inr ⟨_, rfl⟩
    | some c => exact .inl ⟨_, rfl⟩

end Sys2Proof.Machine
end

section
/-! SUPPORT. The command placed on OP, reset, and the host's accesses to the registers and the buffers (10_state.md R24 to R30,
R34). -/

namespace Sys2Proof.Machine

/-- The decoder reads bits 1:0 of the word, the bits that OP takes (30_encoding.md R70). -/
theorem decodeTableWord_eq_some {nbits w : Nat} {i : Instr} (h : decodeTableWord nbits w = some i) :
    decodeOp (BitVec.ofNat 2 w) = i := by
  have hlow : (BitVec.ofNat 8 w).setWidth 2 = BitVec.ofNat 2 w := BitVec.setWidth_ofNat_of_le (by decide) w
  rw [decodeTableWord] at h
  cases hn : (nbits + 7) / 8 with
  | zero => rw [hn] at h; cases h
  | succ n =>
    by_cases hb : (BitVec.ofNat 8 w).toNat < 4
    · simpa only [hn, leBytes, Sys2Proof.decode, if_pos hb, hlow, Option.some.injEq] using h
    · simp only [hn, leBytes, Sys2Proof.decode, if_neg hb, reduceCtorEq] at h

/-- Settles O5: the event placed names the instance addressed, and addressing that one again changes nothing. -/
theorem placedCommandRunsNext : Obligations.PlacedCommandRunsNext := by
  intro s nbits w i h
  have hsel : ((s.withFetchWord nbits w).setInput s.input).select s.before.length = some s := select_before_length s
  show runEvent ⟨s.before.length, .issue (BitVec.ofNat 2 w)⟩ ((s.withFetchWord nbits w).setInput s.input) = exec i s
  rw [runEvent, hsel, ← decodeTableWord_eq_some h]
  rfl

/-- Settles O8: every instance leaves reset as `Codec.reset`. -/
theorem resetGivesOnlySeqAValue : Obligations.ResetGivesOnlySeqAValue := by
  refine fun extra frmCap => ⟨rfl, by rw [resetOf_insts, List.length_replicate], rfl, fun c hc => ?_, rfl⟩
  rw [resetOf_insts] at hc
  rw [List.eq_of_mem_replicate hc]
  exact ⟨rfl, fun a => ⟨Memory.read_nil a, Memory.read_nil a⟩⟩

/-! ### Host accesses -/

/-- Settles O48: no register write is stopped but FRMLEN's, and that one only above FRM_CAP. -/
theorem hostWritesAndReadsRegisters : Obligations.HostWritesAndReadsRegisters := by
  intro s
  have hwrite : ∀ {w : HostWrite}, w.wellFormed s.frmCap = true →
      perform (.write w) s = .next (s.setCur (s.cur.written w)) := hostWrite_of_wellFormed
  exact ⟨fun v => ⟨_, hwrite rfl, rfl, rfl⟩, fun v => ⟨_, hwrite rfl, rfl, rfl⟩, fun v => ⟨_, hwrite rfl, rfl, rfl⟩,
    fun v => ⟨_, hwrite rfl, rfl, rfl⟩, fun v => ⟨_, hwrite rfl, rfl, rfl⟩,
    fun n hn => ⟨_, hwrite (decide_eq_true hn), rfl, rfl⟩, rfl⟩

/-- Settles O49: a byte that does not exist faults, one that holds no value refuses, and FRMLEN does not take a value above
FRM_CAP. -/
theorem hostAccessesStopByName : Obligations.HostAccessesStopByName := by
  refine fun s => ⟨fun i b hi => if_neg (Nat.not_lt.2 hi), fun i b hi => if_neg (Nat.not_lt.2 hi),
    fun i hi => hostRead_pay_of_ge hi s, fun i hi => hostRead_frm_of_ge hi, fun i hi hv => ?_, fun i hi hv => ?_,
    fun n hn => if_neg (Nat.not_le.2 hn)⟩
  · rw [perform, hostRead_pay_of_lt hi, hv]; rfl
  · rw [perform, hostRead_frm_of_lt hi, hv]; rfl

end Sys2Proof.Machine
end

section
/-! SUPPORT. Byte order and storage: which bytes a little-endian access writes and reads, and that a host access to a byte is that
of a storage cell (20_memory.md R50 to R52, R56); then what the ids of two NEW commands of a run are to each other (R60). -/

namespace Sys2Proof.Machine

/-! ### Little-endian bytes -/

theorem two_pow_eight_mul (n : Nat) : 2 ^ (8 * n) = 256 ^ n := Nat.pow_mul 2 8 n

theorem getElem?_leBytes {n k : Nat} (hk : k < n) (v : Nat) :
    (leBytes n v)[k]? = some (BitVec.ofNat 8 (v / 2 ^ (8 * k))) := by
  induction n generalizing k v with
  | zero => exact absurd hk (Nat.not_lt_zero k)
  | succ n ih =>
    cases k with
    | zero => simp [leBytes]
    | succ k =>
      rw [leBytes, List.getElem?_cons_succ, ih (Nat.lt_of_succ_lt_succ hk), two_pow_eight_mul, two_pow_eight_mul,
        Nat.div_div_eq_div_mul, ← Nat.pow_succ']

/-- 20_memory.md R51, for every address: byte k of the value inside the field, what was there outside. -/
theorem read_memWrite (m : Memory) (a n v x : Nat) :
    (memWrite m a n v).read x =
      if a ≤ x ∧ x < a + n then some (BitVec.ofNat 8 (v / 2 ^ (8 * (x - a)))) else m.read x := by
  rw [memWrite, read_writeBytes, leBytes_length]
  by_cases h : a ≤ x ∧ x < a + n
  · rw [if_pos h, if_pos h, getElem?_leBytes (by omega)]
  · rw [if_neg h, if_neg h]

/-- Settles O11: both clauses and the two examples are cases of what a byte reads as after the write. -/
theorem memWriteIsLittleEndian : Obligations.MemWriteIsLittleEndian := by
  refine ⟨fun m a n v _ _ => ⟨fun k hk => ?_, fun x hx => ?_⟩, fun m => ?_, fun m => ?_⟩
  · rw [read_memWrite, if_pos (by omega), Nat.add_sub_cancel_left]
  · rw [read_memWrite, if_neg (by omega)]
  · simp [read_memWrite]
  · simp [read_memWrite]

/-- 20_memory.md R52: the value of a run of bytes is their sum, byte k weighing 2^(8k). -/
theorem leValue_eq_sum (bs : List Byte) :
    leValue bs = ((List.range bs.length).map fun k => 2 ^ (8 * k) * (bs.getD k 0#8).toNat).sum := by
  induction bs with
  | nil => rfl
  | cons b bs ih =>
    rw [leValue, ih, List.length_cons, List.range_succ_eq_map, List.map_cons, List.sum_cons, List.map_map,
      ← List.sum_map_mul_left]
    simp [Function.comp_def, two_pow_eight_mul, Nat.pow_succ', Nat.mul_assoc]

/-- A read inside a written field gives the bytes of the value that stand there. -/
theorem memRead_memWrite_inside (m : Memory) (a v : Nat) {n k j : Nat} (h : k + j ≤ n) :
    memRead (memWrite m a n v) (a + k) j = some (v / 2 ^ (8 * k) % 2 ^ (8 * j)) := by
  have hbytes : readBytes (memWrite m a n v) (a + k) j = some (leBytes j (v / 2 ^ (8 * k))) := by
    refine readBytes_eq_some_iff.2 ⟨leBytes_length .., fun i hi => ?_⟩
    rw [read_memWrite, if_pos (by omega), getElem?_leBytes hi, Nat.div_div_eq_div_mul, ← Nat.pow_add, ← Nat.mul_add,
      Nat.add_assoc, Nat.add_sub_cancel_left]
  rw [memRead, hbytes, Option.map_some, leValue_leBytes, two_pow_eight_mul j]

/-- Settles O12: a read of the whole field is a read inside it, and so are the examples. -/
theorem memReadAssemblesLittleEndian : Obligations.MemReadAssemblesLittleEndian := by
  refine ⟨fun m a bs _ hbs => ?_, fun m a n v _ hv => ?_, fun m a n v k j _ _ _ h => memRead_memWrite_inside m a v h,
    fun m => ⟨?_, ?_⟩⟩
  · rw [memRead, readBytes_eq_some_iff.2 ⟨rfl, hbs⟩, ← leValue_eq_sum, two_pow_eight_mul]
    exact ⟨rfl, leValue_lt bs⟩
  · have hwhole := memRead_memWrite_inside m a v (k := 0) (Nat.zero_add n).le
    rwa [Nat.add_zero, Nat.mul_zero, Nat.pow_zero, Nat.div_one, Nat.mod_eq_of_lt hv] at hwhole
  · exact memRead_memWrite_inside m 2 0xAABBCCDD (n := 4) (k := 0) (j := 1) (by decide)
  · exact memRead_memWrite_inside m 2 0xAABBCCDD (n := 4) (k := 2) (j := 2) (by decide)

/-! ### Host accesses to the buffers -/

theorem hostReadByte_setAnswer (buf : Buffer) (b : Option Byte) (s : State) (n : Nat) :
    hostReadByte buf b (s.setCur (s.cur.setAnswer n)) = hostReadByte buf b s := by
  cases b <;> rfl

/-- A host read delivers the same whatever the one before it delivered (log 6). -/
theorem hostRead_setAnswer (r : HostRead) (s : State) (n : Nat) :
    hostRead r (s.setCur (s.cur.setAnswer n)) = hostRead r s := by
  cases r with
  | pay i => exact if_congr Iff.rfl (hostReadByte_setAnswer ..) rfl
  | frm i => exact if_congr Iff.rfl (hostReadByte_setAnswer ..) rfl
  | origin => rfl
  | dest => rfl
  | seqid => rfl
  | csum => rfl
  | len => rfl
  | frmLen => rfl
  | status => rfl

theorem hostRead_pay_of_read {s : State} {i : Nat} {b : Byte} (hi : i < payCap) (hb : s.cur.pay.read i = some b) :
    hostRead (.pay i) s = .next (s.setCur (s.cur.setAnswer b.toNat)) := by
  rw [hostRead_pay_of_lt hi, hb]; rfl

theorem hostRead_frm_of_read {s : State} {i : Nat} {b : Byte} (hi : i < s.frmCap) (hb : s.cur.frm.read i = some b) :
    hostRead (.frm i) s = .next (s.setCur (s.cur.setAnswer b.toNat)) := by
  rw [hostRead_frm_of_lt hi, hb]; rfl

/-- Settles O13: a host write is `Memory.write` on its buffer, which a read of the same byte gives back, and a host read sets
`answer` alone, on which no host read depends. -/
theorem buffersAreStorage : Obligations.BuffersAreStorage := by
  refine ⟨fun s i b hi => ?_, fun s i b hi => ?_, fun s t r h => ?_⟩
  · have hsame := s.cur.pay.read_write_same i b
    exact ⟨s.setCur (s.cur.written (.pay i b)), hostWrite_of_wellFormed (w := .pay i b) (decide_eq_true hi), hsame,
      fun a ha => s.cur.pay.read_write_other b ha, rfl, hostRead_pay_of_read hi hsame⟩
  · have hsame := s.cur.frm.read_write_same i b
    exact ⟨s.setCur (s.cur.written (.frm i b)), hostWrite_of_wellFormed (w := .frm i b) (decide_eq_true hi), hsame,
      fun a ha => s.cur.frm.read_write_other b ha, rfl, hostRead_frm_of_read hi hsame⟩
  · obtain ⟨-, n, rfl⟩ := hostRead_cases h
    exact ⟨rfl, (hostRead_setAnswer r s n).trans h⟩

/-! ### The ids of two NEW commands -/

/-- NEW gives the packet the value it leaves in SEQ (43_new.md R130). -/
theorem perform_new_seqid {s t : State} (h : perform (.issue 0b11#2) s = .next t) : t.cur.seqid = t.seq := by
  obtain ⟨p, -, rfl⟩ := exec_new_next h
  rfl

/-- A step that issues NEW, on whichever instance: the event is taken off, SEQ goes up by one modulo 2^32, and the packet gets
the new SEQ. -/
theorem step_new {s t : State} {k : Nat} {es : List Event} (hin : s.input = ⟨k, .issue 0b11#2⟩ :: es)
    (h : step s = .next t) :
    t.input = es ∧ t.seq.toNat = (s.seq.toNat + 1) % 4294967296 ∧ t.cur.seqid = t.seq := by
  obtain ⟨hinput, hseq⟩ := step_seq h
  rw [hin] at hinput hseq
  refine ⟨hinput, hseq, ?_⟩
  rcases step_performs h with ⟨hnil, -⟩ | ⟨e, s', hin', -, -, -, -, hperf⟩
  · rw [hin] at hnil; cases hnil
  · rw [hin] at hin'
    cases hin'
    exact perform_new_seqid hperf

/-- Settles O39: the later id is the earlier one plus the NEW commands between them plus one, modulo 2^32. -/
theorem sequenceIdsDoNotRepeat : Obligations.SequenceIdsDoNotRepeat := by
  intro n k k' es es' s t u v hs hst htu hu huv
  obtain ⟨htin, -, htid⟩ := step_new hs hst
  obtain ⟨-, hvseq, hvid⟩ := step_new hu huv
  have huseq := seqCountsNewCommands n t u htu
  rw [htin] at huseq
  have hlater : v.seq.toNat = (t.seq.toNat + (newCount (es.take n) + 1)) % 4294967296 := by
    rw [hvseq, huseq, Nat.mod_add_mod, Nat.add_assoc]
  have ht : t.seq.toNat < 4294967296 := t.seq.isLt
  rw [hvid, htid]
  refine ⟨fun hcount heq => ?_, fun hnowrap => ?_⟩
  · rw [heq] at hlater; omega
  · omega

end Sys2Proof.Machine
end


section
/-! SUPPORT. The command code in its 2-bit form and in a byte (30_encoding.md R70, R71, R81, R85). -/

namespace Sys2Proof.Machine

/-- 30_encoding.md R81: what the code owes a command it owes every command. -/
theorem opCode_statement (i : Instr) : Laws.OpCode.Statement i := by
  cases i with
  | csum => exact Laws.OpCode.csum
  | encode => exact Laws.OpCode.encode
  | decode => exact Laws.OpCode.decode
  | new => exact Laws.OpCode.new

/-- The code has no value to spare: the decoder, which answers NEW when no other command fits, does so for 11 alone. -/
theorem encode_decodeOp (op : BitVec 2) : encode (decodeOp op) = op := by
  revert op; decide

theorem exec_ne_fault (i : Instr) (s : State) (r : Fault) : exec i s ≠ .fault r := by
  rcases commandsStopOnlyOnUnwrittenBytes.2 i s with ⟨t, h⟩ | ⟨buf, h⟩
  · rw [h]; exact nofun
  · rw [h]; exact nofun

/-- Settles O1: the eight entries of the table, each by evaluation. -/
theorem opcodeMapIsAsTabled : Obligations.OpcodeMapIsAsTabled :=
  ⟨rfl, rfl, rfl, rfl, rfl, rfl, rfl, rfl⟩

/-- Settles O2: decoder and encoder undo each other, and a command completes or is refused. -/
theorem everyOpValueIsACommand : Obligations.EveryOpValueIsACommand := by
  refine ⟨fun op => ⟨encode_decodeOp op, ?_⟩, fun i => ?_, fun op s r => exec_ne_fault (decodeOp op) s r⟩
  · obtain ⟨hwf, -, -⟩ := opCode_statement (decodeOp op)
    exact hwf
  · obtain ⟨-, hop, -⟩ := opCode_statement i
    exact hop

/-- Settles O3: a command's byte is below 4 and holds its code in bits 1:0. -/
theorem commandByteDecodesOrIsRejected : Obligations.CommandByteDecodesOrIsRejected := by
  refine ⟨fun i => ?_, fun b rest hb => if_neg (Nat.not_lt.2 hb), rfl⟩
  obtain ⟨-, -, hbyte⟩ := opCode_statement i
  exact hbyte

end Sys2Proof.Machine
end

section
/-! SUPPORT. The size of a frame, and the class of what FRM holds: too short, a bad sum, a frame (30_encoding.md R75, R82). -/

namespace Sys2Proof.Machine

/-- Settles O23: a byte is at most 255, and it is fixed by its value. -/
theorem frameSizeIsSeventeenPlusLength : Obligations.FrameSizeIsSeventeenPlusLength := by
  intro s t h
  obtain ⟨p, -, rfl⟩ := exec_encode_next h
  have hlt : s.cur.len.toNat < 256 := s.cur.len.isLt
  have hzero : s.cur.len = 0#8 ↔ s.cur.len.toNat = 0 := BitVec.toNat_inj.symm
  have hmax : s.cur.len = 255#8 ↔ s.cur.len.toNat = 255 := BitVec.toNat_inj.symm
  simp only [State.setCur_cur, Codec.setStatus_frmLen, Codec.setFrmLen_frmLen, hdrLen, hzero, hmax, true_and]
  omega

/-! ### The class of a frame -/

theorem tooShort_iff {c : Codec} :
    c.tooShort ↔ c.frmLen < 17 ∨ ∃ l, c.frm.read 16 = some l ∧ c.frmLen < 17 + l.toNat := by
  simp only [Codec.tooShort, frameLength_eq_read, hdrLen]

theorem headerShort_iff {n : Nat} : headerShort n = true ↔ n < 17 := decide_eq_true_iff

theorem bodyShort_iff {n : Nat} {l : Byte} : bodyShort n l = true ↔ n < 17 + l.toNat := decide_eq_true_iff

/-- What DECODE finds, with the tests and the length byte in the statements' numbers. -/
theorem scanFrame_eq (m : Memory) (n : Nat) :
    scanFrame m n = if n < 17 then some none
      else (m.read 16).bind fun l => if n < 17 + l.toNat then some none else (readFrame m l).map some := by
  simp only [scanFrame, headerShort_iff, bodyShort_iff, frameLength_eq_read]

theorem scanFrame_eq_short_iff {c : Codec} : scanFrame c.frm c.frmLen = some none ↔ c.tooShort := by
  rw [scanFrame_eq, tooShort_iff]
  by_cases h1 : c.frmLen < 17
  · simp [h1]
  · simp only [h1, if_false, false_or, Option.bind_eq_some_iff]
    refine exists_congr fun l => and_congr_right fun _ => ?_
    by_cases h2 : c.frmLen < 17 + l.toNat <;> simp [h2]

theorem scanFrame_eq_whole_iff {c : Codec} {p : Packet} : scanFrame c.frm c.frmLen = some (some p) ↔ c.holdsFrame p := by
  refine ⟨fun h => ?_, scanFrame_eq_whole⟩
  rw [scanFrame_eq] at h
  by_cases h1 : c.frmLen < 17
  · simp [h1] at h
  · rw [if_neg h1, Option.bind_eq_some_iff] at h
    obtain ⟨l, hl, h⟩ := h
    by_cases h2 : c.frmLen < 17 + l.toNat
    · simp [h2] at h
    · have hp : readFrame c.frm l = some p := by simpa [h2] using h
      obtain rfl := readFrame_len hp
      exact ⟨Nat.not_lt.1 h2, (frameLength_eq_read c.frm).trans hl, hp⟩

/-! ### Where every byte holds a value, DECODE is not refused -/

theorem exists_readBytes {m : Memory} {a n : Nat} (h : ∀ x, a ≤ x → x < a + n → m.read x ≠ none) :
    ∃ bs, readBytes m a n = some bs :=
  Option.ne_none_iff_exists'.1 fun hnone => by
    obtain ⟨i, hi, hread⟩ := readBytes_eq_none_iff.1 hnone
    exact h (a + i) (by omega) (by omega) hread

theorem exists_memRead {m : Memory} {a n : Nat} (h : ∀ x, a ≤ x → x < a + n → m.read x ≠ none) :
    ∃ v, memRead m a n = some v := by
  obtain ⟨bs, hbs⟩ := exists_readBytes h
  exact ⟨leValue bs, by rw [memRead, hbs, Option.map_some]⟩

/-- The fields of a frame stand between offset 2 and the end of its payload (30_encoding.md R73). -/
theorem exists_readFrame {m : Memory} {l : Byte} (h : ∀ x, 2 ≤ x → x < 17 + l.toNat → m.read x ≠ none) :
    ∃ p, readFrame m l = some p := by
  have hfield : ∀ a n, 2 ≤ a → a + n ≤ 17 → ∃ v, memRead m a n = some v := fun a n ha hn =>
    exists_memRead fun x _ _ => h x (by omega) (by omega)
  obtain ⟨o, ho⟩ := hfield offOrigin 4 (by decide) (by decide)
  obtain ⟨d, hd⟩ := hfield offDest 4 (by decide) (by decide)
  obtain ⟨q, hq⟩ := hfield offSeq 4 (by decide) (by decide)
  obtain ⟨c, hc⟩ := hfield offCsum 2 (by decide) (by decide)
  obtain ⟨bs, hbs⟩ : ∃ bs, readBytes m hdrLen l.toNat = some bs := exists_readBytes fun x hx hxl =>
    h x (le_trans (by decide) hx) hxl
  simp [readFrame, ho, hd, hq, hc, hbs]

theorem exists_scanFrame {m : Memory} {n : Nat} (h : ∀ x, 2 ≤ x → x < n → m.read x ≠ none) :
    ∃ f, scanFrame m n = some f := by
  rw [scanFrame_eq]
  by_cases h1 : n < 17
  · exact ⟨none, if_pos h1⟩
  · obtain ⟨l, hl⟩ := Option.ne_none_iff_exists'.1 (h 16 (by omega) (by omega))
    by_cases h2 : n < 17 + l.toNat
    · exact ⟨none, by simp [hl, h2]⟩
    · obtain ⟨p, hp⟩ := exists_readFrame (m := m) (l := l) fun x hx hxl => h x hx (by omega)
      exact ⟨some p, by simp [hl, h1, h2, hp]⟩

/-! ### The STATUS that DECODE leaves -/

/-- The checksum that DECODE compares is the one of a valid packet (40_checksum.md R100, 42_decode.md R120 step 5). -/
theorem valid_iff_trunc16 {p : Packet} : p.Valid ↔ trunc16 p.sum = p.csum := by
  have hsum : (trunc16 p.sum).toNat = exactSum p.origin p.dest p.seqid p.len p.payload % 65536 := by
    rw [trunc16, BitVec.toNat_setWidth, Packet.sum, accSum_toNat]
    omega
  rw [Packet.Valid, ← hsum, BitVec.toNat_inj, eq_comm]

/-- 30_encoding.md R82: the class of what was found is read off STATUS. -/
theorem decoded_status_iff (c : Codec) (f : Option Packet) :
    ((c.decoded f).status = 1#2 ↔ f = none) ∧
    ((c.decoded f).status = 2#2 ↔ ∃ p, f = some p ∧ ¬ p.Valid) ∧
    ((c.decoded f).status = 0#2 ↔ ∃ p, f = some p ∧ p.Valid) := by
  cases f with
  | none => simp [Codec.decoded]
  | some p =>
    by_cases hc : trunc16 p.sum = p.csum
    · simp [Codec.decoded_of_sum_eq hc, valid_iff_trunc16, hc]
    · simp [Codec.decoded_of_sum_ne hc, valid_iff_trunc16, hc]

/-- Settles O27: with every byte it may read holding a value DECODE completes, and STATUS says what it found. -/
theorem everyFrameFallsInOneClass : Obligations.EveryFrameFallsInOneClass := by
  intro s hbytes
  obtain ⟨f, hf⟩ := exists_scanFrame hbytes
  obtain ⟨hshort, hbad, hgood⟩ := decoded_status_iff s.cur f
  have hnone : f = none ↔ s.cur.tooShort := by rw [← scanFrame_eq_short_iff, hf, Option.some_inj]
  have hsome : ∀ p, f = some p ↔ FrameAt s.cur.frm p ∧ 17 + p.len.toNat ≤ s.cur.frmLen := fun p => by
    rw [← holdsFrame_iff, ← scanFrame_eq_whole_iff, hf, Option.some_inj]
  refine ⟨s.setCur (s.cur.decoded f), by rw [exec_decode_eq, hf]; rfl, ?_⟩
  simp only [State.setCur_cur]
  refine ⟨?_, hshort.trans (hnone.trans tooShort_iff), ?_, ?_⟩
  · cases f with
    | none => exact .inr (.inl (hshort.2 rfl))
    | some p =>
      by_cases hv : p.Valid
      · exact .inl (hgood.2 ⟨p, rfl, hv⟩)
      · exact .inr (.inr (hbad.2 ⟨p, rfl, hv⟩))
  · simp only [hbad, hsome, and_assoc]
  · simp only [hgood, hsome, and_assoc]

end Sys2Proof.Machine
end

section
/-! SUPPORT. LOADPAY and LOADFRM: host writes queued for the instance addressed take place one after the other on it
(30_encoding.md R86). -/

namespace Sys2Proof.Machine

/-! ### Writes queued for the instance addressed -/

theorem run_succ_of_step {s t : State} (h : step s = .next t) (n : Nat) : run (n + 1) s = run n t := by
  rw [run, h]

theorem step_of_input_addressed {s : State} {a : HostAction} {es : List Event}
    (hin : s.input = ⟨s.before.length, a⟩ :: es) : step s = perform a (s.setInput es) := by
  have hsel : (s.setInput es).select s.before.length = some (s.setInput es) := select_before_length (s.setInput es)
  rw [step, nextEvent, hin]
  simp only [runEvent, hsel]

/-- Host writes that are not stopped all take effect, in order, on the instance addressed, and on nothing else. -/
theorem run_writes {s : State} {ws : List HostWrite} {es : List Event}
    (hwf : ∀ w ∈ ws, w.wellFormed s.frmCap = true)
    (hin : s.input = (ws.map HostAction.write).map (fun a => ⟨s.before.length, a⟩) ++ es) :
    run ws.length s = .next ((s.setInput es).setCur (ws.foldl Codec.written s.cur)) := by
  induction ws generalizing s with
  | nil => rw [← show s.input = es from hin]; rfl
  | cons w ws ih =>
    obtain ⟨hw, hws⟩ := List.forall_mem_cons.1 hwf
    have hstep := (step_of_input_addressed hin).trans (hostWrite_of_wellFormed hw)
    exact (run_succ_of_step hstep ws.length).trans (ih hws rfl)

/-! ### Consecutive bytes -/

/-- The writes of LOADPAY before the one to PKT.LEN. -/
def payByteWrites (i : Nat) (bs : List Byte) : List HostWrite := (bs.zipIdx i).map fun x => .pay x.2 x.1

/-- The writes of LOADFRM before the one to FRMLEN. -/
def frmByteWrites (i : Nat) (bs : List Byte) : List HostWrite := (bs.zipIdx i).map fun x => .frm x.2 x.1

theorem payWrites_eq (i : Nat) (bs : List Byte) : payWrites i bs = (payByteWrites i bs).map .write := by
  induction bs generalizing i with
  | nil => rfl
  | cons b bs ih => rw [payWrites, ih]; rfl

theorem frmWrites_eq (i : Nat) (bs : List Byte) : frmWrites i bs = (frmByteWrites i bs).map .write := by
  induction bs generalizing i with
  | nil => rfl
  | cons b bs ih => rw [frmWrites, ih]; rfl

theorem foldl_written_payByteWrites (c : Codec) (i : Nat) (bs : List Byte) :
    (payByteWrites i bs).foldl Codec.written c = c.setPay (writeBytes c.pay i bs) := by
  induction bs generalizing c i with
  | nil => rfl
  | cons b bs ih => exact ih (c.written (.pay i b)) (i + 1)

theorem foldl_written_frmByteWrites (c : Codec) (i : Nat) (bs : List Byte) :
    (frmByteWrites i bs).foldl Codec.written c = c.setFrm (writeBytes c.frm i bs) := by
  induction bs generalizing c i with
  | nil => rfl
  | cons b bs ih => exact ih (c.written (.frm i b)) (i + 1)

theorem payByteWrites_wellFormed {bs : List Byte} (h : bs.length ≤ payCap) (frmCap : Nat) :
    ∀ w ∈ payByteWrites 0 bs, w.wellFormed frmCap = true :=
  List.forall_mem_map.2 fun x hx => decide_eq_true ((List.snd_lt_of_mem_zipIdx hx).trans_le (by omega))

theorem frmByteWrites_wellFormed {bs : List Byte} {frmCap : Nat} (h : bs.length ≤ frmCap) :
    ∀ w ∈ frmByteWrites 0 bs, w.wellFormed frmCap = true :=
  List.forall_mem_map.2 fun x hx => decide_eq_true ((List.snd_lt_of_mem_zipIdx hx).trans_le (by omega))

/-- A buffer whose first bytes have been written: these bytes, and from there on what was there. -/
theorem read_writeBytes_zero (m : Memory) (bs : List Byte) :
    (∀ i < bs.length, (writeBytes m 0 bs).read i = bs[i]?) ∧
    ∀ a, bs.length ≤ a → (writeBytes m 0 bs).read a = m.read a :=
  ⟨fun i hi => by rw [read_writeBytes, if_pos (by omega), Nat.sub_zero],
    fun a ha => by rw [read_writeBytes, if_neg (by omega)]⟩

/-! ### LOADPAY and LOADFRM -/

theorem loadPay_eq_some_iff {bs : List Byte} {as : List HostAction} :
    loadPay bs = some as ↔
      bs.length ≤ payCap ∧ as = (payByteWrites 0 bs ++ [HostWrite.len (BitVec.ofNat 8 bs.length)]).map .write := by
  simp [loadPay, payWrites_eq, eq_comm]

theorem loadFrm_eq (bs : List Byte) : loadFrm bs = (frmByteWrites 0 bs ++ [HostWrite.frmLen bs.length]).map .write := by
  simp [loadFrm, frmWrites_eq]

/-- Settles O50: the queued writes leave PAY with the bytes written from 0 on, then PKT.LEN with their number, which fits a
byte. -/
theorem loadPayPresentsThePayload : Obligations.LoadPayPresentsThePayload := by
  refine ⟨fun bs as es s hload hin => ?_, fun bs => ?_⟩
  · obtain ⟨hcap, rfl⟩ := loadPay_eq_some_iff.1 hload
    have hrun := run_writes (List.forall_mem_append.2
      ⟨payByteWrites_wellFormed hcap s.frmCap, List.forall_mem_singleton.2 rfl⟩) hin
    rw [List.foldl_append, foldl_written_payByteWrites] at hrun
    obtain ⟨hbytes, hrest⟩ := read_writeBytes_zero s.cur.pay bs
    have hlen : bs.length = (BitVec.ofNat 8 bs.length).toNat := by
      have hlt : bs.length < 256 := Nat.lt_succ_of_le hcap
      rw [BitVec.toNat_ofNat]
      omega
    exact ⟨_, by rw [List.length_map]; exact hrun, ⟨hlen, hbytes⟩, hrest, rfl⟩
  · rw [loadPay, ite_eq_right_iff]
    simp [payCap]

/-- Settles O51: the queued writes leave FRM with the bytes written from 0 on, then FRMLEN with their number. -/
theorem loadFrmPresentsTheFrame : Obligations.LoadFrmPresentsTheFrame := by
  intro bs es s hcap hin
  rw [loadFrm_eq] at hin ⊢
  have hfrmLen : (HostWrite.frmLen bs.length).wellFormed s.frmCap = true := decide_eq_true hcap
  have hrun := run_writes (List.forall_mem_append.2
    ⟨frmByteWrites_wellFormed hcap, List.forall_mem_singleton.2 hfrmLen⟩) hin
  rw [List.foldl_append, foldl_written_frmByteWrites] at hrun
  obtain ⟨hbytes, hrest⟩ := read_writeBytes_zero s.cur.frm bs
  exact ⟨_, by rw [List.length_map]; exact hrun, hbytes, hrest, rfl⟩

end Sys2Proof.Machine
end

section
/-! SUPPORT. The checksum as a number: the exact sum modulo 2^16, and what a change of one operand does to it (40_checksum.md
R100 to R104). -/

namespace Sys2Proof.Machine

/-- 40_checksum.md R100, with the vocabulary of the statements. -/
theorem csum16_toNat (o d s : U32) (l : Byte) (p : List Byte) :
    (csum16 o d s l p).toNat = exactSum o d s l p % 65536 := by
  rw [csum16, trunc16, BitVec.toNat_setWidth, accSum_toNat]
  exact Nat.mod_mod_of_dvd _ (by decide)

/-- Two checksums are the same exactly when the exact sums agree modulo 2^16. -/
theorem csum16_eq_iff {o d s o' d' s' : U32} {l l' : Byte} {p p' : List Byte} :
    csum16 o d s l p = csum16 o' d' s' l' p' ↔
      exactSum o d s l p % 65536 = exactSum o' d' s' l' p' % 65536 := by
  rw [← csum16_toNat, ← csum16_toNat, BitVec.toNat_inj]

/-- Settles O14: the accumulator is the sum modulo 2^32, and truncating it takes the sum modulo 2^16. -/
theorem checksumIsTheTruncatedSum : Obligations.ChecksumIsTheTruncatedSum :=
  fun o d s l p => ⟨csum16_toNat o d s l p, accSum_toNat o d s l p, trunc16_eq_extractLsb' (accSum o d s l p)⟩

/-! ### The width of the accumulator -/

theorem sum_toNat_le (p : List Byte) : (p.map BitVec.toNat).sum ≤ p.length * 255 := by
  have hbyte : ∀ x ∈ p.map BitVec.toNat, x ≤ 255 := List.forall_mem_map.2 fun b _ => Nat.le_of_lt_succ b.isLt
  simpa using List.sum_le_card_nsmul _ 255 hbyte

/-- 40_checksum.md R102: three words and a length at their greatest, and 255 payload bytes of 255. -/
theorem exactSum_le {o d s : U32} {l : Byte} {p : List Byte} (hp : p.length = l.toNat) :
    exactSum o d s l p ≤ 12884967165 := by
  have hsum := sum_toNat_le p
  have ho : o.toNat < 4294967296 := o.isLt
  have hd : d.toNat < 4294967296 := d.isLt
  have hs : s.toNat < 4294967296 := s.isLt
  have hl : l.toNat < 256 := l.isLt
  unfold exactSum
  omega

/-- Settles O15: 2^16 divides 2^W, so the sum modulo 2^W still has the sum's residue modulo 2^16. -/
theorem checksumNeedsOnlySixteenBits : Obligations.ChecksumNeedsOnlySixteenBits := by
  refine ⟨fun W o d s l p hW => ?_, fun o d s l p => ?_, fun o d s l p hp => exactSum_le hp, by decide⟩
  · have hdvd : 65536 ∣ 2 ^ W := pow_dvd_pow 2 hW
    rw [csum16_toNat, Nat.mod_mod_of_dvd _ hdvd]
  · rw [csum16_toNat, exactSum]
    omega

/-! ### What a changed operand does -/

theorem exactSum_perm (o d s : U32) (l : Byte) {p q : List Byte} (h : p.Perm q) :
    exactSum o d s l p = exactSum o d s l q := by
  rw [exactSum, exactSum, (h.map BitVec.toNat).sum_eq]

theorem exactSum_cons (o d s : U32) (l b : Byte) (p : List Byte) :
    exactSum o d s l (b :: p) = exactSum o d s l p + b.toNat := by
  rw [exactSum, exactSum, List.map_cons, List.sum_cons]
  omega

/-- The sum trades the old byte for the new one: bring the byte to the front, which leaves the sum. -/
theorem exactSum_set (o d s : U32) (l b : Byte) {p : List Byte} {i : Nat} (hi : i < p.length) :
    exactSum o d s l (p.set i b) + p[i].toNat = exactSum o d s l p + b.toNat := by
  have hnew := exactSum_perm o d s l (List.set_perm_cons_eraseIdx hi b)
  have hold := exactSum_perm o d s l (List.getElem_cons_eraseIdx_perm hi)
  rw [exactSum_cons] at hnew hold
  omega

/-- Settles O16: the exact sum does not see the order. -/
theorem checksumIgnoresPayloadOrder : Obligations.ChecksumIgnoresPayloadOrder :=
  fun o d s l _ _ h => csum16_eq_iff.2 (by rw [exactSum_perm o d s l h])

/-- Two different bytes differ by less than 2^16, so the sums differ modulo 2^16. -/
theorem exactSum_set_mod_ne (o d s : U32) (l b : Byte) {p : List Byte} {i : Nat} (hi : i < p.length)
    (hb : p[i]? ≠ some b) : exactSum o d s l (p.set i b) % 65536 ≠ exactSum o d s l p % 65536 := by
  have hset := exactSum_set o d s l b hi
  have hne : p[i].toNat ≠ b.toNat := fun h => hb (by rw [List.getElem?_eq_getElem hi, BitVec.eq_of_toNat_eq h])
  have hold : p[i].toNat < 256 := p[i].isLt
  have hnew : b.toNat < 256 := b.isLt
  omega

/-- Settles O17. -/
theorem oneChangedByteChangesTheChecksum : Obligations.OneChangedByteChangesTheChecksum :=
  fun o d s l _ _ b hi hb h => exactSum_set_mod_ne o d s l b hi hb (csum16_eq_iff.1 h)

/-- Settles O18: a word is one term of the sum, so the sums agree modulo 2^16 exactly when the words do. -/
theorem wordChangesShowOnlyInTheLowHalf : Obligations.WordChangesShowOnlyInTheLowHalf := by
  intro o d s v l p
  simp only [csum16_eq_iff, exactSum]
  omega

/-! ### CSUM -/

/-- Settles O19. -/
theorem csumStoresThePacketChecksum : Obligations.CsumStoresThePacketChecksum :=
  fun _ _ hp => ⟨_, exec_csum_of_payload hp, csum16_toNat .., rfl⟩

/-- Settles O20: the only writes are those of PKT.CSUM, ACC and STATUS. -/
theorem csumLeavesTheRest : Obligations.CsumLeavesTheRest := by
  intro s t h
  have haround := exec_sameAround h
  obtain ⟨p, -, rfl⟩ := exec_csum_next h
  exact ⟨rfl, rfl, rfl, rfl, rfl, rfl, rfl, fun _ => rfl, fun _ => rfl, rfl, haround⟩

end Sys2Proof.Machine
end

section
/-! SUPPORT. Bytes written again where they stand change nothing, not even the list that holds them, whether or not it is in
canonical form; so a command given twice ends where it ended once (40_checksum.md R101, 41_encode.md R112, 42_decode.md
R125). -/

namespace Sys2Proof.Machine

/-! ### Writing the same bytes again -/

theorem Memory.write_write_same (m : Memory) (a : Nat) (v : Byte) : (m.write a v).write a v = m.write a v := by
  induction m with
  | nil => simp [Memory.write]
  | cons cell m ih =>
    obtain ⟨x, y⟩ := cell
    rcases lt_trichotomy a x with h | rfl | h
    · simp [Memory.write, h]
    · simp [Memory.write]
    · simp [Memory.write, h.not_gt, h.ne', ih]

/-- A write that changes nothing changes nothing after a write of a later byte either: the later byte is put behind the
place where the earlier one stands. -/
theorem Memory.write_fixed_of_lt {m : Memory} {a b : Nat} {v : Byte} (hab : a < b) (hm : m.write a v = m) (w : Byte) :
    (m.write b w).write a v = m.write b w := by
  induction m with
  | nil => simp [Memory.write] at hm
  | cons cell m ih =>
    obtain ⟨x, y⟩ := cell
    rcases lt_trichotomy a x with h | rfl | h
    · simp [Memory.write, h] at hm
    · have hy : v = y := by simpa [Memory.write] using hm
      simp [Memory.write, hab.not_gt, hab.ne', hy]
    · have htail : Memory.write m a v = m := by simpa [Memory.write, h.not_gt, h.ne'] using hm
      have hxb : x < b := h.trans hab
      simp [Memory.write, hxb.not_gt, hxb.ne', h.not_gt, h.ne', ih htail]

theorem writeBytes_fixed_of_lt {m : Memory} {a b : Nat} {v : Byte} (hab : a < b) (hm : m.write a v = m)
    (bs : List Byte) : (writeBytes m b bs).write a v = writeBytes m b bs := by
  induction bs generalizing m b with
  | nil => exact hm
  | cons w bs ih => exact ih (Nat.lt_succ_of_lt hab) (Memory.write_fixed_of_lt hab hm w)

theorem writeBytes_writeBytes_same (m : Memory) (a : Nat) (bs : List Byte) :
    writeBytes (writeBytes m a bs) a bs = writeBytes m a bs := by
  induction bs generalizing m a with
  | nil => rfl
  | cons b bs ih =>
    have hfixed : (writeBytes (m.write a b) (a + 1) bs).write a b = writeBytes (m.write a b) (a + 1) bs :=
      writeBytes_fixed_of_lt (Nat.lt_succ_self a) (m.write_write_same a b) bs
    rw [writeBytes, writeBytes, hfixed, ih]

/-! ### Marshalling writes one run of bytes -/

theorem writeBytes_append (m : Memory) (a : Nat) (bs cs : List Byte) :
    writeBytes m a (bs ++ cs) = writeBytes (writeBytes m a bs) (a + bs.length) cs := by
  induction bs generalizing m a with
  | nil => rfl
  | cons b bs ih => rw [List.cons_append, writeBytes, ih, List.length_cons, writeBytes, Nat.add_right_comm, Nat.add_assoc]

/-- The bytes of the frame of the packet held in PKT with payload `p`, from offset 0 on (30_encoding.md R73). -/
def Codec.frameBytes (c : Codec) (p : List Byte) : List Byte :=
  leBytes 1 Config.sync0.toNat ++ leBytes 1 Config.sync1.toNat ++ leBytes 4 c.origin.toNat ++ leBytes 4 c.dest.toNat ++
    leBytes 4 c.seqid.toNat ++ leBytes 2 c.csum.toNat ++ leBytes 1 c.len.toNat ++ p

theorem Codec.marshal_eq_writeBytes (c : Codec) (p : List Byte) : c.marshal p = writeBytes c.frm 0 (c.frameBytes p) := by
  simp only [Codec.frameBytes, writeBytes_append, List.length_append, leBytes_length, Codec.marshal, memWrite, offSync,
    offOrigin, offDest, offSeq, offCsum, offLen, hdrLen, Nat.zero_add, Nat.reduceAdd]

/-- ENCODE leaves the bytes that it would write. -/
theorem Codec.marshal_encoded (c : Codec) (p : List Byte) (n : Nat) (v : BitVec 2) :
    (((c.setFrm (c.marshal p)).setFrmLen n).setStatus v).marshal p = c.marshal p := by
  have hbytes : (((c.setFrm (c.marshal p)).setFrmLen n).setStatus v).frameBytes p = c.frameBytes p := rfl
  rw [Codec.marshal_eq_writeBytes, hbytes, Codec.setStatus_frm, Codec.setFrmLen_frm, Codec.setFrm_frm,
    Codec.marshal_eq_writeBytes, writeBytes_writeBytes_same]

/-! ### The commands given again -/

theorem Codec.decoded_frm (c : Codec) (f : Option Packet) : (c.decoded f).frm = c.frm := by
  cases f with
  | none => rfl
  | some p => rw [Codec.decoded, Option.elim_some]; split_ifs <;> rfl

theorem Codec.decoded_frmLen (c : Codec) (f : Option Packet) : (c.decoded f).frmLen = c.frmLen := by
  cases f with
  | none => rfl
  | some p => rw [Codec.decoded, Option.elim_some]; split_ifs <;> rfl

/-- A DECODE that finds the same again leaves what it left before. -/
theorem Codec.decoded_decoded (c : Codec) (f : Option Packet) : (c.decoded f).decoded f = c.decoded f := by
  cases f with
  | none => rfl
  | some p =>
    by_cases hc : trunc16 p.sum = p.csum
    · have hpay := writeBytes_writeBytes_same c.pay 0 p.payload
      simp only [Codec.decoded_of_sum_eq hc]
      exact congrArg (((c.setAcc p.sum).loadPacket p).setStatus 0#2).setPay hpay
    · simp only [Codec.decoded_of_sum_ne hc]; rfl

theorem exec_encode_of_payload {s : State} {p : List Byte} (hp : s.cur.PayloadIs p) :
    exec .encode s = .next (s.setCur
      (((s.cur.setFrm (s.cur.marshal p)).setFrmLen (hdrLen + s.cur.len.toNat)).setStatus 0#2)) := by
  rw [exec_eq, Codec.commanded, payload_eq_some_iff.2 hp]; rfl

theorem exec_csum_again {s t : State} (h : exec .csum s = .next t) : exec .csum t = .next t := by
  obtain ⟨p, hp, rfl⟩ := exec_csum_next h
  exact exec_csum_of_payload (s := s.setCur ((s.cur.storeChecksum p).setStatus 0#2)) (payload_eq_some_iff.1 hp)

theorem exec_encode_again {s t : State} (h : exec .encode s = .next t) : exec .encode t = .next t := by
  obtain ⟨p, hp, rfl⟩ := exec_encode_next h
  have hagain := exec_encode_of_payload (p := p)
    (s := s.setCur (((s.cur.setFrm (s.cur.marshal p)).setFrmLen (hdrLen + s.cur.len.toNat)).setStatus 0#2))
    (payload_eq_some_iff.1 hp)
  rw [State.setCur_cur, Codec.marshal_encoded] at hagain
  exact hagain

theorem exec_decode_again {s t : State} (h : exec .decode s = .next t) : exec .decode t = .next t := by
  rw [exec_decode_eq] at h
  cases hf : scanFrame s.cur.frm s.cur.frmLen with
  | none => rw [hf] at h; cases h
  | some f =>
    rw [hf] at h
    cases h
    rw [exec_decode_eq]
    simp only [State.setCur_cur, Codec.decoded_frm, Codec.decoded_frmLen, hf, Option.map_some, Codec.decoded_decoded]
    rfl

/-- Settles O42: each of the three writes from operands that it leaves as they are. -/
theorem repeatingACommandChangesNothing : Obligations.RepeatingACommandChangesNothing := by
  rintro i s t (rfl | rfl | rfl) h
  · exact exec_csum_again h
  · exact exec_encode_again h
  · exact exec_decode_again h

end Sys2Proof.Machine
end

section
/-! SUPPORT. What one changed byte of a frame does to the packet read from it, and so to the STATUS that DECODE leaves
(40_checksum.md R104). -/

namespace Sys2Proof.Machine

/-! ### One byte of a field -/

theorem memRead_write_apart (m : Memory) {x a n : Nat} (b : Byte) (h : x < a ∨ a + n ≤ x) :
    memRead (m.write x b) a n = memRead m a n :=
  congrArg (Option.map leValue) (readBytes_congr fun y _ _ => m.read_write_other b (by omega))

/-- The value trades the old byte for the new one, at the weight of its place (20_memory.md R52). -/
theorem leValue_set {bs : List Byte} {k : Nat} (hk : k < bs.length) (b : Byte) :
    leValue (bs.set k b) + 256 ^ k * bs[k].toNat = leValue bs + 256 ^ k * b.toNat := by
  induction bs generalizing k with
  | nil => exact absurd hk (Nat.not_lt_zero k)
  | cons x bs ih =>
    cases k with
    | zero => simp only [List.set_cons_zero, leValue, List.getElem_cons_zero]; omega
    | succ k =>
      have htail := ih (Nat.lt_of_succ_lt_succ hk)
      simp only [List.set_cons_succ, leValue, List.getElem_cons_succ, Nat.pow_succ', Nat.mul_assoc]
      omega

theorem readBytes_write_inside {m : Memory} {a n k : Nat} {bs : List Byte} (h : readBytes m a n = some bs)
    (b : Byte) : readBytes (m.write (a + k) b) a n = some (bs.set k b) := by
  obtain ⟨hlen, hread⟩ := readBytes_eq_some_iff.1 h
  refine readBytes_eq_some_iff.2 ⟨by rw [List.length_set, hlen], fun i hi => ?_⟩
  rw [Memory.read_write, List.getElem?_set]
  by_cases hik : i = k
  · rw [if_pos (by omega), if_pos hik.symm, if_pos (by omega)]
  · rw [if_neg (by omega), if_neg (Ne.symm hik), hread i hi]

theorem memRead_write_inside {m : Memory} {a n k v : Nat} (h : memRead m a n = some v) (hk : k < n) (b : Byte) :
    ∃ old v', m.read (a + k) = some old ∧ memRead (m.write (a + k) b) a n = some v' ∧
      v' + 256 ^ k * old.toNat = v + 256 ^ k * b.toNat := by
  obtain ⟨bs, hbs, rfl⟩ := Option.map_eq_some_iff.1 h
  obtain ⟨hlen, hread⟩ := readBytes_eq_some_iff.1 hbs
  have hkl : k < bs.length := by omega
  refine ⟨bs[k], leValue (bs.set k b), ?_, ?_, leValue_set hkl b⟩
  · rw [hread k hk, List.getElem?_eq_getElem hkl]
  · rw [memRead, readBytes_write_inside hbs b, Option.map_some]

/-- Modulo 2^16 a field keeps its value when the byte changed stands at place 2 or above, and else only when the byte keeps
its own. -/
theorem patched_value_mod_iff {k v v' : Nat} {old b : Byte} (h : v' + 256 ^ k * old.toNat = v + 256 ^ k * b.toNat) :
    v' % 65536 = v % 65536 ↔ 2 ≤ k ∨ old = b := by
  have hold : old.toNat < 256 := old.isLt
  have hb : b.toNat < 256 := b.isLt
  rw [← BitVec.toNat_inj]
  match k with
  | 0 => omega
  | 1 => omega
  | k + 2 =>
    rw [Nat.pow_add', Nat.mul_assoc, Nat.mul_assoc] at h
    omega

/-! ### The header's fields -/

/-- The fields of the header that DECODE sums or compares (30_encoding.md R73). -/
inductive HeaderField where
  | origin
  | dest
  | seqid
  | csum

/-- Where the field stands (30_encoding.md R73). -/
def HeaderField.offset : HeaderField → Nat
  | .origin => 2
  | .dest => 6
  | .seqid => 10
  | .csum => 14

/-- How many bytes the field has (30_encoding.md R73). -/
def HeaderField.size : HeaderField → Nat
  | .origin => 4
  | .dest => 4
  | .seqid => 4
  | .csum => 2

/-- The field's value in a packet. -/
def Packet.field (p : Packet) : HeaderField → Nat
  | .origin => p.origin.toNat
  | .dest => p.dest.toNat
  | .seqid => p.seqid.toNat
  | .csum => p.csum.toNat

/-- The packet with another value in one field. -/
def Packet.setField (p : Packet) (f : HeaderField) (v : Nat) : Packet :=
  match f with
  | .origin => { p with origin := BitVec.ofNat 32 v }
  | .dest => { p with dest := BitVec.ofNat 32 v }
  | .seqid => { p with seqid := BitVec.ofNat 32 v }
  | .csum => { p with csum := BitVec.ofNat 16 v }

@[simp] theorem Packet.setField_len (p : Packet) (f : HeaderField) (v : Nat) : (p.setField f v).len = p.len := by
  cases f <;> rfl

@[simp] theorem Packet.setField_payload (p : Packet) (f : HeaderField) (v : Nat) :
    (p.setField f v).payload = p.payload := by
  cases f <;> rfl

theorem Packet.field_setField_same (p : Packet) {f : HeaderField} {v : Nat} (hv : v < 256 ^ f.size) :
    (p.setField f v).field f = v := by
  cases f <;> exact Nat.mod_eq_of_lt hv

theorem Packet.field_setField_other (p : Packet) {f g : HeaderField} (h : g ≠ f) (v : Nat) :
    (p.setField f v).field g = p.field g := by
  cases f <;> cases g <;> simp [Packet.setField, Packet.field] at h ⊢

theorem HeaderField.offset_add_size_le (f : HeaderField) : f.offset + f.size ≤ 16 := by cases f <;> decide

theorem HeaderField.two_le_offset (f : HeaderField) : 2 ≤ f.offset := by cases f <;> decide

theorem HeaderField.apart {f g : HeaderField} (h : g ≠ f) :
    f.offset + f.size ≤ g.offset ∨ g.offset + g.size ≤ f.offset := by
  cases f <;> cases g <;> simp [HeaderField.offset, HeaderField.size] at h ⊢

/-- A frame, field by field. -/
theorem frameAt_iff {m : Memory} {p : Packet} :
    FrameAt m p ↔ (∀ f : HeaderField, memRead m f.offset f.size = some (p.field f)) ∧
      memRead m 16 1 = some p.len.toNat ∧ p.payload.length = p.len.toNat ∧
      ∀ i < p.payload.length, m.read (17 + i) = p.payload[i]? := by
  constructor
  · rintro ⟨ho, hd, hs, hc, hrest⟩
    refine ⟨fun f => ?_, hrest⟩
    cases f with
    | origin => exact ho
    | dest => exact hd
    | seqid => exact hs
    | csum => exact hc
  · rintro ⟨hfields, hrest⟩
    exact ⟨hfields .origin, hfields .dest, hfields .seqid, hfields .csum, hrest⟩

/-- Whether a packet stays valid when one field changes is decided by the field's value modulo 2^16 (40_checksum.md R102,
R104). -/
theorem Packet.Valid.setField_iff {p : Packet} (h : p.Valid) {f : HeaderField} {v : Nat} (hv : v < 256 ^ f.size) :
    (p.setField f v).Valid ↔ v % 65536 = p.field f % 65536 := by
  unfold Packet.Valid exactSum at *
  have hc : p.csum.toNat < 65536 := p.csum.isLt
  cases f <;> simp only [Packet.setField, Packet.field, HeaderField.size, BitVec.toNat_ofNat] at hv ⊢ <;> omega

/-! ### One changed byte of a frame -/

/-- The marker is no part of what a frame says (42_decode.md R122). -/
theorem FrameAt.write_marker {m : Memory} {p : Packet} (h : FrameAt m p) {x : Nat} (hx : x < 2) (b : Byte) :
    FrameAt (m.write x b) p := by
  obtain ⟨hfields, hlen, hplen, hpay⟩ := frameAt_iff.1 h
  refine frameAt_iff.2 ⟨fun f => ?_, ?_, hplen, fun i hi => ?_⟩
  · have hf := f.two_le_offset
    rw [memRead_write_apart m b (by omega), hfields f]
  · rw [memRead_write_apart m b (by omega), hlen]
  · rw [Memory.read_write_other m b (by omega), hpay i hi]

theorem FrameAt.write_payload {m : Memory} {p : Packet} (h : FrameAt m p) {i : Nat} (hi : i < p.payload.length)
    (b : Byte) : FrameAt (m.write (17 + i) b) { p with payload := p.payload.set i b } := by
  obtain ⟨hfields, hlen, hplen, hpay⟩ := frameAt_iff.1 h
  refine frameAt_iff.2 ⟨fun f => ?_, ?_, by rw [List.length_set, hplen], fun j hj => ?_⟩
  · have hf := f.offset_add_size_le
    rw [memRead_write_apart m b (by omega), hfields f]
    cases f <;> rfl
  · rw [memRead_write_apart m b (by omega), hlen]
  · rw [List.length_set] at hj
    rw [Memory.read_write, List.getElem?_set]
    by_cases hji : j = i
    · rw [if_pos (by omega), if_pos hji.symm, if_pos hi]
    · rw [if_neg (by omega), if_neg (Ne.symm hji), hpay j hj]

/-- A byte of a field changes that field and no other part of the packet. -/
theorem FrameAt.write_field {m : Memory} {p : Packet} (h : FrameAt m p) {f : HeaderField} {k : Nat} (hk : k < f.size)
    (b : Byte) :
    ∃ old v, m.read (f.offset + k) = some old ∧ FrameAt (m.write (f.offset + k) b) (p.setField f v) ∧
      v < 256 ^ f.size ∧ v + 256 ^ k * old.toNat = p.field f + 256 ^ k * b.toNat := by
  obtain ⟨hfields, hlen, hplen, hpay⟩ := frameAt_iff.1 h
  obtain ⟨old, v, hold, hv, hvalue⟩ := memRead_write_inside (hfields f) hk b
  have hend := f.offset_add_size_le
  refine ⟨old, v, hold, frameAt_iff.2 ⟨fun g => ?_, ?_, ?_, fun i hi => ?_⟩, memRead_lt hv, hvalue⟩
  · by_cases hg : g = f
    · rw [hg, hv, p.field_setField_same (memRead_lt hv)]
    · have hapart := HeaderField.apart hg
      rw [memRead_write_apart m b (by omega), hfields g, p.field_setField_other hg]
  · rw [memRead_write_apart m b (by omega), hlen, Packet.setField_len]
  · rw [Packet.setField_payload, Packet.setField_len, hplen]
  · rw [Packet.setField_payload] at hi ⊢
    rw [Memory.read_write_other m b (by omega), hpay i hi]

/-! ### What DECODE answers -/

/-- 42_decode.md R120 step 5: of a whole frame, STATUS says whether the packet is valid. -/
theorem exec_decode_of_frameAt {s : State} {p : Packet} (hf : FrameAt s.cur.frm p)
    (hl : 17 + p.len.toNat ≤ s.cur.frmLen) :
    ∃ t, exec .decode s = .next t ∧ (p.Valid → t.cur.status = 0#2 ∧ t.cur.PayloadIs p.payload) ∧
      (¬ p.Valid → t.cur.status = 2#2) := by
  obtain ⟨-, -, -, -, -, hplen, -⟩ := id hf
  refine ⟨_, exec_decode_of_frame (holdsFrame_iff.2 ⟨hf, hl⟩), fun hv => ?_, fun hv => ?_⟩
  · rw [State.setCur_cur, Codec.decoded_of_sum_eq (valid_iff_trunc16.1 hv)]
    obtain ⟨hbytes, -⟩ := read_writeBytes_zero s.cur.pay p.payload
    exact ⟨rfl, hplen, hbytes⟩
  · rw [State.setCur_cur, Codec.decoded_of_sum_ne fun hc => hv (valid_iff_trunc16.2 hc)]
    rfl

/-- One byte of a header field changed in a frame that DECODE accepts: it is still accepted exactly when the byte is byte 2 or
3 of a word, or did not change. -/
theorem exec_decode_of_patched_field {s : State} {p : Packet} (hf : FrameAt s.cur.frm p)
    (hl : 17 + p.len.toNat ≤ s.cur.frmLen) (hv : p.Valid) {f : HeaderField} {k : Nat} (hk : k < f.size) (b : Byte) :
    ∃ t, exec .decode (s.setCur (s.cur.setFrm (s.cur.frm.write (f.offset + k) b))) = .next t ∧
      (2 ≤ k → t.cur.status = 0#2) ∧ (k < 2 → s.cur.frm.read (f.offset + k) ≠ some b → t.cur.status = 2#2) := by
  obtain ⟨old, v, hold, hframe, hlt, hvalue⟩ := hf.write_field hk b
  have hvalid : (p.setField f v).Valid ↔ 2 ≤ k ∨ old = b :=
    (hv.setField_iff hlt).trans (patched_value_mod_iff hvalue)
  obtain ⟨t, ht, hok, hbad⟩ := exec_decode_of_frameAt
    (s := s.setCur (s.cur.setFrm (s.cur.frm.write (f.offset + k) b))) hframe (by rw [Packet.setField_len]; exact hl)
  refine ⟨t, ht, fun h2 => (hok (hvalid.2 (.inl h2))).1, fun h2 hne => hbad fun hval => ?_⟩
  rcases hvalid.1 hval with h | rfl
  · exact absurd h (Nat.not_le.2 h2)
  · exact hne hold

/-- Settles O31: the frame then holds the packet with that byte set, whose sum is another one modulo 2^16. -/
theorem tamperedPayloadByteIsRejected : Obligations.TamperedPayloadByteIsRejected := by
  intro s p i b hf hl hv hi hb
  obtain ⟨t, ht, -, hbad⟩ := exec_decode_of_frameAt
    (s := s.setCur (s.cur.setFrm (s.cur.frm.write (17 + i) b))) (hf.write_payload hi b) hl
  refine ⟨t, ht, hbad fun hval => exactSum_set_mod_ne p.origin p.dest p.seqid p.len b hi hb ?_⟩
  exact hval.symm.trans hv

theorem lowHeaderByte_cases {a : Nat} (h : a ∈ [2, 3, 6, 7, 10, 11, 14, 15]) :
    ∃ (f : HeaderField) (k : Nat), k < f.size ∧ k < 2 ∧ a = f.offset + k := by
  simp only [List.mem_cons, List.not_mem_nil, or_false] at h
  rcases h with rfl | rfl | rfl | rfl | rfl | rfl | rfl | rfl
  · exact ⟨.origin, 0, by decide⟩
  · exact ⟨.origin, 1, by decide⟩
  · exact ⟨.dest, 0, by decide⟩
  · exact ⟨.dest, 1, by decide⟩
  · exact ⟨.seqid, 0, by decide⟩
  · exact ⟨.seqid, 1, by decide⟩
  · exact ⟨.csum, 0, by decide⟩
  · exact ⟨.csum, 1, by decide⟩

theorem highHeaderByte_cases {a : Nat} (h : a ∈ [0, 1, 4, 5, 8, 9, 12, 13]) :
    a < 2 ∨ ∃ (f : HeaderField) (k : Nat), k < f.size ∧ 2 ≤ k ∧ a = f.offset + k := by
  simp only [List.mem_cons, List.not_mem_nil, or_false] at h
  rcases h with rfl | rfl | rfl | rfl | rfl | rfl | rfl | rfl
  · exact .inl (by decide)
  · exact .inl (by decide)
  · exact .inr ⟨.origin, 2, by decide⟩
  · exact .inr ⟨.origin, 3, by decide⟩
  · exact .inr ⟨.dest, 2, by decide⟩
  · exact .inr ⟨.dest, 3, by decide⟩
  · exact .inr ⟨.seqid, 2, by decide⟩
  · exact .inr ⟨.seqid, 3, by decide⟩

/-- Settles O32: a byte of a field counts modulo 2^16 when it is byte 0 or 1, and the marker is not looked at. -/
theorem tamperedHeaderBytesAreClassified : Obligations.TamperedHeaderBytesAreClassified := by
  refine fun s p a b hf hl hv => ⟨fun ha hb => ?_, fun ha => ?_⟩
  · obtain ⟨f, k, hk, hlow, rfl⟩ := lowHeaderByte_cases ha
    obtain ⟨t, ht, -, hbad⟩ := exec_decode_of_patched_field hf hl hv hk b
    exact ⟨t, ht, hbad hlow hb⟩
  · rcases highHeaderByte_cases ha with hmarker | ⟨f, k, hk, hhigh, rfl⟩
    · obtain ⟨t, ht, hok, -⟩ := exec_decode_of_frameAt
        (s := s.setCur (s.cur.setFrm (s.cur.frm.write a b))) (hf.write_marker hmarker b) hl
      exact ⟨t, ht, (hok hv).1⟩
    · obtain ⟨t, ht, hok, -⟩ := exec_decode_of_patched_field hf hl hv hk b
      exact ⟨t, ht, hok hhigh⟩

/-- Settles O33: the reordered packet has the same sum and the same checksum field, so it is valid too. -/
theorem reorderedPayloadIsAccepted : Obligations.ReorderedPayloadIsAccepted := by
  intro s p q m hv hpq hf hl
  have hvq : Packet.Valid { p with payload := q } := by
    unfold Packet.Valid at hv ⊢
    rw [hv, exactSum_perm _ _ _ _ hpq]
  obtain ⟨t, ht, hok, -⟩ := exec_decode_of_frameAt (s := s.setCur (s.cur.setFrm m)) hf hl
  exact ⟨t, ht, hok hvq⟩

end Sys2Proof.Machine
end

section
/-! SUPPORT. The frame that ENCODE leaves in FRM, field by field, and what it does not write (41_encode.md R110). -/

namespace Sys2Proof.Machine

/-! ### A field among other writes -/

/-- 20_memory.md R52: a field holds the word written to it. -/
theorem memRead_memWrite_toNat (m : Memory) (a : Nat) {n w : Nat} (hw : w = 8 * n) (v : BitVec w) :
    memRead (memWrite m a n v.toNat) a n = some v.toNat := by
  have hv : v.toNat < 256 ^ n := by rw [← two_pow_eight_mul, ← hw]; exact v.isLt
  have hbytes := readBytes_writeBytes_same m a (leBytes n v.toNat)
  rw [leBytes_length] at hbytes
  rw [memRead, memWrite, hbytes, Option.map_some, leValue_leBytes, Nat.mod_eq_of_lt hv]

theorem memRead_writeBytes_apart (m : Memory) (a : Nat) (bs : List Byte) {x n : Nat}
    (h : x + n ≤ a ∨ a + bs.length ≤ x) : memRead (writeBytes m a bs) x n = memRead m x n :=
  congrArg (Option.map leValue) (readBytes_writeBytes_apart m a bs h)

theorem memRead_memWrite_apart (m : Memory) {a n x k : Nat} (v : Nat) (h : x + k ≤ a ∨ a + n ≤ x) :
    memRead (memWrite m a n v) x k = memRead m x k :=
  memRead_writeBytes_apart m a (leBytes n v) (by rwa [leBytes_length])

/-! ### The marshalled frame -/

theorem Codec.read_marshal_marker (c : Codec) (p : List Byte) :
    (c.marshal p).read 0 = some Config.sync0 ∧ (c.marshal p).read 1 = some Config.sync1 := by
  constructor
  · rw [read_marshal, if_neg (by omega), if_neg (by decide)]; simp [leBytes]
  · rw [read_marshal, if_neg (by omega), if_neg (by decide)]; simp [leBytes]

theorem Codec.read_marshal_payload (c : Codec) {p : List Byte} {i : Nat} (hi : i < p.length) :
    (c.marshal p).read (17 + i) = p[i]? := by
  rw [read_marshal, if_neg (by omega), if_pos (by omega), Nat.add_sub_cancel_left]

theorem Codec.read_marshal_beyond (c : Codec) {p : List Byte} {x : Nat} (hx : 17 + p.length ≤ x) :
    (c.marshal p).read x = c.frm.read x := by
  rw [read_marshal, if_pos hx]

/-- Each field holds its register: the writes after it touch other bytes. -/
theorem Codec.memRead_marshal_field (c : Codec) (p : List Byte) (f : HeaderField) :
    memRead (c.marshal p) f.offset f.size = some ((c.packet p).field f) := by
  unfold Codec.marshal offSync offOrigin offDest offSeq offCsum offLen hdrLen
  cases f <;> simp (disch := omega) only [HeaderField.offset, HeaderField.size, Packet.field, Codec.packet,
    memRead_writeBytes_apart, memRead_memWrite_apart, memRead_memWrite_toNat]

theorem Codec.memRead_marshal_len (c : Codec) (p : List Byte) : memRead (c.marshal p) 16 1 = some c.len.toNat := by
  rw [Codec.marshal, offLen, memRead_writeBytes_apart _ _ _ (.inl (by decide)), memRead_memWrite_toNat _ _ rfl]

/-- Marshalling leaves the frame of the packet held (30_encoding.md R73, 41_encode.md R110). -/
theorem Codec.frameAt_marshal {c : Codec} {p : List Byte} (h : p.length = c.len.toNat) :
    FrameAt (c.marshal p) (c.packet p) :=
  frameAt_iff.2 ⟨c.memRead_marshal_field p, c.memRead_marshal_len p, h, fun _ hi => c.read_marshal_payload hi⟩

/-! ### ENCODE -/

/-- Settles O22: the only writes are those of FRM, FRMLEN and STATUS, and marshalling a payload of LEN bytes ends at
17 + LEN. -/
theorem encodeLeavesTheRest : Obligations.EncodeLeavesTheRest := by
  intro s t h
  have haround := exec_sameAround h
  obtain ⟨p, hp, rfl⟩ := exec_encode_next h
  obtain ⟨hlen, -⟩ := payload_eq_some_iff.1 hp
  exact ⟨⟨rfl, rfl, rfl, rfl, rfl⟩, rfl, rfl, rfl, fun _ => rfl,
    fun a ha => s.cur.read_marshal_beyond (hlen ▸ ha), rfl, haround⟩

/-- Settles O21: ENCODE completes with the marshalled frame, and what it leaves is O22's. -/
theorem encodeMarshalsThePacket : Obligations.EncodeMarshalsThePacket := by
  refine ⟨rfl, fun s p hp => ?_⟩
  have hexec := exec_encode_of_payload hp
  obtain ⟨hregs, -, -, -, hpay, hbeyond, hseq, -⟩ := encodeLeavesTheRest s _ hexec
  obtain ⟨hlen, -⟩ := hp
  obtain ⟨hsync0, hsync1⟩ := s.cur.read_marshal_marker p
  exact ⟨_, hexec, hsync0, hsync1, Codec.frameAt_marshal hlen, rfl, rfl, hregs, hpay, hseq, hbeyond⟩

end Sys2Proof.Machine
end

section
/-! SUPPORT. DECODE from its cases: what it does where the frame is too short, has a wrong sum or is whole, which bytes of FRM
decide that, and what it leaves after ENCODE (42_decode.md R120 to R126). -/

namespace Sys2Proof.Machine

/-! ### The packet held, and what an error leaves -/

theorem SameBytes.trans {m m' m'' : Memory} (h : SameBytes m m') (h' : SameBytes m' m'') : SameBytes m m'' :=
  fun a => (h' a).trans (h a)

theorem Codec.SamePacketRegs.trans {c c' c'' : Codec} (h : c.SamePacketRegs c') (h' : c'.SamePacketRegs c'') :
    c.SamePacketRegs c'' := by
  obtain ⟨ho, hd, hs, hc, hl⟩ := h
  obtain ⟨ho', hd', hs', hc', hl'⟩ := h'
  exact ⟨ho'.trans ho, hd'.trans hd, hs'.trans hs, hc'.trans hc, hl'.trans hl⟩

theorem Codec.SamePacketRegs.packet_eq {c c' : Codec} (h : c.SamePacketRegs c') (p : List Byte) :
    c'.packet p = c.packet p := by
  obtain ⟨ho, hd, hs, hc, hl⟩ := h
  simp only [Codec.packet, ho, hd, hs, hc, hl]

/-- Which payload is held is decided by PKT.LEN and by what the bytes of PAY read as (10_state.md R25). -/
theorem Codec.PayloadIs.of_same {c c' : Codec} {p : List Byte} (h : c.PayloadIs p) (hregs : c.SamePacketRegs c')
    (hpay : SameBytes c.pay c'.pay) : c'.PayloadIs p := by
  obtain ⟨hlen, hbytes⟩ := h
  obtain ⟨-, -, -, -, hl⟩ := hregs
  exact ⟨hlen.trans (congrArg BitVec.toNat hl.symm), fun i hi => (hpay i).trans (hbytes i hi)⟩

/-- Writing the payload over itself changes no byte of PAY. -/
theorem Codec.PayloadIs.sameBytes_writeBytes {c : Codec} {p : List Byte} (h : c.PayloadIs p) :
    SameBytes c.pay (writeBytes c.pay 0 p) := by
  obtain ⟨-, hbytes⟩ := h
  obtain ⟨hin, hout⟩ := read_writeBytes_zero c.pay p
  intro a
  rcases Nat.lt_or_ge a p.length with ha | ha
  · exact (hin a ha).trans (hbytes a ha).symm
  · exact hout a ha

/-- 42_decode.md R124: what an error leaves, the hidden ACC aside (log 8). -/
theorem Codec.leaves_of_error (c : Codec) (acc : U32) (v : BitVec 2) :
    c.SamePacketRegs ((c.setAcc acc).setStatus v) ∧ SameBytes c.pay ((c.setAcc acc).setStatus v).pay ∧
      ((c.setAcc acc).setStatus v).held = { c.held with status := true } :=
  ⟨⟨rfl, rfl, rfl, rfl, rfl⟩, fun _ => rfl, rfl⟩

/-! ### DECODE after ENCODE -/

/-- 42_decode.md R126: a DECODE that finds the packet held leaves it, valid or not. -/
theorem Codec.decoded_packet_same {c : Codec} {p : List Byte} (h : c.PayloadIs p) :
    c.SamePacketRegs (c.decoded (some (c.packet p))) ∧ SameBytes c.pay (c.decoded (some (c.packet p))).pay := by
  by_cases hc : trunc16 (c.packet p).sum = (c.packet p).csum
  · rw [Codec.decoded_of_sum_eq hc]
    exact ⟨by simp [Codec.SamePacketRegs, Codec.packet], h.sameBytes_writeBytes⟩
  · rw [Codec.decoded_of_sum_ne hc]
    obtain ⟨hregs, hpay, -⟩ := c.leaves_of_error (c.packet p).sum 2#2
    exact ⟨hregs, hpay⟩

/-- Settles O40: ENCODE leaves a whole frame of the packet held, and PKT and PAY as they were (O21), so what DECODE finds is
the packet that is held. -/
theorem decodeUndoesEncode : Obligations.DecodeUndoesEncode := by
  intro s p hp
  obtain ⟨-, hencode⟩ := encodeMarshalsThePacket
  obtain ⟨t, ht, -, -, hframe, hfrmLen, -, hregs, hpay, -⟩ := hencode s p hp
  have hheld : t.cur.PayloadIs p := hp.of_same hregs hpay
  have hwhole : t.cur.holdsFrame (s.cur.packet p) := holdsFrame_iff.2 ⟨hframe, hfrmLen.ge⟩
  rw [← hregs.packet_eq p] at hwhole ⊢
  obtain ⟨hregs', hpay'⟩ := Codec.decoded_packet_same hheld
  obtain ⟨-, hbad, hgood⟩ := decoded_status_iff t.cur (some (t.cur.packet p))
  exact ⟨t, _, ht, exec_decode_of_frame hwhole, hfrmLen, fun hv => hgood.2 ⟨_, rfl, hv⟩, fun hv => hbad.2 ⟨_, rfl, hv⟩,
    hregs.trans hregs', hheld.of_same hregs' hpay', hpay.trans hpay'⟩

/-! ### The frame of DECODE -/

/-- Settles O30: the three ways in which DECODE completes write STATUS, STATUS and the hidden ACC, or PKT, the decoded bytes of
PAY, STATUS and ACC. -/
theorem decodeLeavesTheRest : Obligations.DecodeLeavesTheRest := by
  intro s t h
  have haround := exec_sameAround h
  rcases exec_decode_next h with ⟨-, rfl⟩ | ⟨p, -, -, rfl⟩ | ⟨p, hf, -, rfl⟩
  · exact ⟨fun _ => rfl, rfl, rfl, rfl, haround, fun _ => s.cur.leaves_of_error s.cur.acc 1#2,
      fun hok => absurd hok (show (1#2 : BitVec 2) ≠ 0#2 by decide)⟩
  · exact ⟨fun _ => rfl, rfl, rfl, rfl, haround, fun _ => s.cur.leaves_of_error p.sum 2#2,
      fun hok => absurd hok (show (2#2 : BitVec 2) ≠ 0#2 by decide)⟩
  · obtain ⟨⟨-, -, -, -, -, hplen, -⟩, -⟩ := holdsFrame_iff.1 hf
    obtain ⟨-, hout⟩ := read_writeBytes_zero s.cur.pay p.payload
    exact ⟨fun _ => rfl, rfl, rfl, rfl, haround, fun herror => absurd rfl herror,
      fun _ => ⟨fun a ha => hout a (hplen ▸ ha), rfl⟩⟩

/-! ### The steps of DECODE -/

/-- 42_decode.md R120 steps 1 and 3. -/
theorem decode_of_tooShort {s : State} (h : s.cur.tooShort) :
    ∃ t, exec .decode s = .next t ∧ t.cur.status = 1#2 ∧ s.cur.SamePacketRegs t.cur ∧ SameBytes s.cur.pay t.cur.pay := by
  have hexec : exec .decode s = .next (s.setCur (s.cur.setStatus 1#2)) := by
    rw [exec_decode_eq, scanFrame_eq_short_iff.2 h]; rfl
  obtain ⟨hregs, hpay, -⟩ := s.cur.leaves_of_error s.cur.acc 1#2
  exact ⟨_, hexec, rfl, hregs, hpay⟩

/-- 42_decode.md R120 step 5, for a checksum that differs. -/
theorem decode_of_invalid {s : State} {p : Packet} (hf : s.cur.holdsFrame p) (hv : ¬ p.Valid) :
    ∃ t, exec .decode s = .next t ∧ t.cur.status = 2#2 ∧ s.cur.SamePacketRegs t.cur ∧ SameBytes s.cur.pay t.cur.pay := by
  have hexec := exec_decode_of_frame hf
  rw [Codec.decoded_of_sum_ne fun hc => hv (valid_iff_trunc16.2 hc)] at hexec
  obtain ⟨hregs, hpay, -⟩ := s.cur.leaves_of_error p.sum 2#2
  exact ⟨_, hexec, rfl, hregs, hpay⟩

/-- 42_decode.md R120 step 6. -/
theorem decode_of_valid {s : State} {p : Packet} (hf : s.cur.holdsFrame p) (hv : p.Valid) :
    ∃ t, exec .decode s = .next t ∧ t.cur.status = 0#2 ∧ t.cur.origin = p.origin ∧ t.cur.dest = p.dest ∧
      t.cur.seqid = p.seqid ∧ t.cur.csum = p.csum ∧ t.cur.len = p.len ∧ t.cur.PayloadIs p.payload := by
  have hexec := exec_decode_of_frame hf
  rw [Codec.decoded_of_sum_eq (valid_iff_trunc16.1 hv)] at hexec
  obtain ⟨⟨-, -, -, -, -, hplen, -⟩, -⟩ := holdsFrame_iff.1 hf
  obtain ⟨hin, -⟩ := read_writeBytes_zero s.cur.pay p.payload
  exact ⟨_, hexec, rfl, rfl, rfl, rfl, rfl, rfl, hplen, hin⟩

/-- Settles O24: one lemma above for each outcome, and O30 for what is never written. -/
theorem decodeFollowsItsSteps : Obligations.DecodeFollowsItsSteps := by
  refine ⟨rfl, fun s h => ?_, fun s l _ hl h => ?_, fun s p hf hl hv => ?_, fun s p hf hl hv => ?_, fun s t h => ?_⟩
  · exact decode_of_tooShort (tooShort_iff.2 (.inl h))
  · exact decode_of_tooShort (tooShort_iff.2 (.inr ⟨l, hl, h⟩))
  · exact decode_of_invalid (holdsFrame_iff.2 ⟨hf, hl⟩) hv
  · exact decode_of_valid (holdsFrame_iff.2 ⟨hf, hl⟩) hv
  · obtain ⟨hfrm, hfrmLen, -, hseq, -⟩ := decodeLeavesTheRest s t h
    exact ⟨hfrm, hfrmLen, hseq⟩

/-! ### What DECODE finds depends on the bytes it reads -/

theorem memRead_congr {m m' : Memory} {a n : Nat} (h : ∀ x, a ≤ x → x < a + n → m.read x = m'.read x) :
    memRead m a n = memRead m' a n :=
  congrArg (Option.map leValue) (readBytes_congr h)

/-- 42_decode.md R121, R122: the fields are read from offset 2 to the end of the payload. -/
theorem readFrame_congr {m m' : Memory} {l : Byte} (h : ∀ x, 2 ≤ x → x < 17 + l.toNat → m.read x = m'.read x) :
    readFrame m l = readFrame m' l := by
  have hfield : ∀ a n, 2 ≤ a → a + n ≤ 17 → memRead m a n = memRead m' a n := fun a n ha hn =>
    memRead_congr fun x _ _ => h x (by omega) (by omega)
  have hpayload : readBytes m hdrLen l.toNat = readBytes m' hdrLen l.toNat :=
    readBytes_congr fun x hx hxl => h x (le_trans (by decide) hx) hxl
  rw [readFrame, hfield offOrigin 4 (by decide) (by decide), hfield offDest 4 (by decide) (by decide),
    hfield offSeq 4 (by decide) (by decide), hfield offCsum 2 (by decide) (by decide), hpayload]
  rfl

/-- 42_decode.md R123: once FRMLEN is long enough for the frame its value does not matter. -/
theorem scanFrame_of_fits {m : Memory} {n : Nat} {l : Byte} (hl : m.read 16 = some l) (hn : 17 + l.toNat ≤ n) :
    scanFrame m n = (readFrame m l).map some := by
  rw [scanFrame_eq, if_neg (by omega), hl, Option.bind_some, if_neg (by omega)]

theorem scanFrame_of_bodyShort {m : Memory} {n : Nat} {l : Byte} (hl : m.read 16 = some l) (hn : n < 17 + l.toNat) :
    scanFrame m n = some none := by
  rw [scanFrame_eq, hl, Option.bind_some, if_pos hn, ite_self]

theorem scanFrame_of_headerShort (m : Memory) {n : Nat} (hn : n < 17) : scanFrame m n = some none := by
  rw [scanFrame_eq, if_pos hn]

theorem scanFrame_of_noLength {m : Memory} {n : Nat} (hl : m.read 16 = none) (hn : 17 ≤ n) : scanFrame m n = none := by
  rw [scanFrame_eq, if_neg (by omega), hl, Option.bind_none]

/-- 42_decode.md R121: the bytes listed decide what DECODE finds. -/
theorem scanFrame_congr {c : Codec} {m : Memory} (h : ∀ a, c.DecodeReads a → m.read a = c.frm.read a) :
    scanFrame m c.frmLen = scanFrame c.frm c.frmLen := by
  by_cases h1 : c.frmLen < 17
  · rw [scanFrame_of_headerShort m h1, scanFrame_of_headerShort c.frm h1]
  · have h17 : 17 ≤ c.frmLen := Nat.not_lt.1 h1
    have h16 : m.read 16 = c.frm.read 16 := h 16 ⟨h17, .inl rfl⟩
    cases hl : c.frm.read 16 with
    | none => rw [scanFrame_of_noLength (h16.trans hl) h17, scanFrame_of_noLength hl h17]
    | some l =>
      rcases Nat.lt_or_ge c.frmLen (17 + l.toNat) with h2 | h2
      · rw [scanFrame_of_bodyShort (h16.trans hl) h2, scanFrame_of_bodyShort hl h2]
      · have hbytes : readFrame m l = readFrame c.frm l :=
          readFrame_congr fun x hx hxl => h x ⟨h17, .inr ⟨l, hl, h2, hx, hxl⟩⟩
        rw [scanFrame_of_fits (h16.trans hl) h2, scanFrame_of_fits hl h2, hbytes]

/-! ### Where DECODE is refused -/

theorem read_ne_none_of_memRead {m : Memory} {a n v x : Nat} (h : memRead m a n = some v) (ha : a ≤ x) (hx : x < a + n) :
    m.read x ≠ none := by
  intro hnone
  have hrun : readBytes m a n = none :=
    readBytes_eq_none_iff.2 ⟨x - a, by omega, by rwa [Nat.add_sub_cancel' ha]⟩
  rw [memRead, hrun] at h
  cases h

/-- The fields of a frame fill its bytes from offset 2 on (30_encoding.md R73). -/
theorem FrameAt.read_ne_none {m : Memory} {p : Packet} (h : FrameAt m p) {x : Nat} (h2 : 2 ≤ x)
    (hx : x < 17 + p.len.toNat) : m.read x ≠ none := by
  obtain ⟨horigin, hdest, hseqid, hcsum, hlen, hplen, hpay⟩ := h
  rcases Nat.lt_or_ge x 6 with h6 | h6
  · exact read_ne_none_of_memRead horigin h2 h6
  rcases Nat.lt_or_ge x 10 with h10 | h10
  · exact read_ne_none_of_memRead hdest h6 h10
  rcases Nat.lt_or_ge x 14 with h14 | h14
  · exact read_ne_none_of_memRead hseqid h10 h14
  rcases Nat.lt_or_ge x 16 with h16 | h16
  · exact read_ne_none_of_memRead hcsum h14 h16
  rcases Nat.lt_or_ge x 17 with h17 | h17
  · exact read_ne_none_of_memRead hlen h16 h17
  · obtain ⟨i, rfl⟩ := Nat.exists_eq_add_of_le h17
    have hi : i < p.payload.length := by omega
    rw [hpay i hi, List.getElem?_eq_getElem hi]
    exact Option.some_ne_none _

theorem readFrame_eq_none_iff {m : Memory} {l : Byte} (hl : m.read 16 = some l) :
    readFrame m l = none ↔ ∃ a, 2 ≤ a ∧ a < 17 + l.toNat ∧ m.read a = none := by
  constructor
  · intro hnone
    by_contra! hall
    obtain ⟨p, hp⟩ := exists_readFrame hall
    rw [hnone] at hp
    cases hp
  · rintro ⟨a, h2, ha, hnone⟩
    cases hp : readFrame m l with
    | none => rfl
    | some p =>
      obtain ⟨rfl, hframe⟩ := readFrame_eq_some_iff.1 ⟨hl, hp⟩
      exact absurd hnone (hframe.read_ne_none h2 ha)

/-- 42_decode.md R121, R125: DECODE finds nothing exactly when a byte that it reads holds no value. -/
theorem scanFrame_eq_none_iff {c : Codec} :
    scanFrame c.frm c.frmLen = none ↔ ∃ a, c.DecodeReads a ∧ c.frm.read a = none := by
  by_cases h1 : c.frmLen < 17
  · rw [scanFrame_of_headerShort c.frm h1]
    exact ⟨fun h => (nomatch h), fun ⟨_, ⟨h17, _⟩, _⟩ => absurd h1 (Nat.not_lt.2 h17)⟩
  have h17 : 17 ≤ c.frmLen := Nat.not_lt.1 h1
  cases hl : c.frm.read 16 with
  | none =>
    rw [scanFrame_of_noLength hl h17]
    exact ⟨fun _ => ⟨16, ⟨h17, .inl rfl⟩, hl⟩, fun _ => rfl⟩
  | some l =>
    rcases Nat.lt_or_ge c.frmLen (17 + l.toNat) with h2 | h2
    · rw [scanFrame_of_bodyShort hl h2]
      refine ⟨fun h => (nomatch h), ?_⟩
      rintro ⟨a, ⟨-, rfl | ⟨l', hl', hfits, -⟩⟩, hnone⟩
      · rw [hl] at hnone; cases hnone
      · rw [hl] at hl'; cases hl'; omega
    · rw [scanFrame_of_fits hl h2, Option.map_eq_none_iff, readFrame_eq_none_iff hl]
      constructor
      · rintro ⟨a, ha, hal, hnone⟩
        exact ⟨a, ⟨h17, .inr ⟨l, hl, h2, ha, hal⟩⟩, hnone⟩
      · rintro ⟨a, ⟨-, rfl | ⟨l', hl', -, ha, hal⟩⟩, hnone⟩
        · rw [hl] at hnone; cases hnone
        · rw [hl] at hl'; cases hl'; exact ⟨a, ha, hal, hnone⟩

theorem exec_decode_refused_iff {s : State} :
    (∃ r, exec .decode s = .refused r) ↔ scanFrame s.cur.frm s.cur.frmLen = none := by
  rw [exec_decode_eq]
  cases scanFrame s.cur.frm s.cur.frmLen with
  | none => exact ⟨fun _ => rfl, fun _ => ⟨_, rfl⟩⟩
  | some f => exact ⟨fun ⟨_, h⟩ => (nomatch h), fun h => (nomatch h)⟩

/-! ### What DECODE leaves is the same in another buffer in which it finds the same -/

theorem Codec.decoded_setFrame (c : Codec) (f : Option Packet) (m : Memory) (n : Nat) :
    Codec.decoded { c with frm := m, frmLen := n } f = { c.decoded f with frm := m, frmLen := n } := by
  cases f with
  | none => rfl
  | some p =>
    by_cases hc : trunc16 p.sum = p.csum
    · simp only [Codec.decoded_of_sum_eq hc]; rfl
    · simp only [Codec.decoded_of_sum_ne hc]; rfl

theorem Codec.decoded_setFrm (c : Codec) (f : Option Packet) (m : Memory) :
    (c.setFrm m).decoded f = (c.decoded f).setFrm m :=
  calc (c.setFrm m).decoded f = { c.decoded f with frm := m, frmLen := c.frmLen } := c.decoded_setFrame f m c.frmLen
    _ = (c.decoded f).setFrm m := by rw [← c.decoded_frmLen f]; rfl

/-- A change of the instance that DECODE neither notices nor undoes can as well be made after it. -/
theorem exec_decode_setCur {s : State} {g : Codec → Codec}
    (hscan : scanFrame (g s.cur).frm (g s.cur).frmLen = scanFrame s.cur.frm s.cur.frmLen)
    (hg : ∀ f, (g s.cur).decoded f = g (s.cur.decoded f)) :
    exec .decode (s.setCur (g s.cur)) = mapNext (fun t => t.setCur (g t.cur)) (exec .decode s) := by
  have hcomm : (g s.cur).decoded = g ∘ s.cur.decoded := funext hg
  rw [exec_decode_eq, exec_decode_eq, State.mapNext_answerTo, State.answerTo_setCur, State.setCur_cur, hscan, hcomm,
    Option.map_map]

/-- Settles O28: DECODE finds nothing exactly where a byte listed holds no value, and what it finds depends on these bytes
alone. -/
theorem decodeReadsOnlyItsBytes : Obligations.DecodeReadsOnlyItsBytes :=
  ⟨fun _ => exec_decode_refused_iff.trans scanFrame_eq_none_iff,
    fun _ m hbytes => exec_decode_setCur (g := (·.setFrm m)) (scanFrame_congr hbytes) fun f => Codec.decoded_setFrm _ f m⟩

/-- Settles O29: both buffers hold the same whole frame. -/
theorem decodeIgnoresMarkerAndTrailingBytes : Obligations.DecodeIgnoresMarkerAndTrailingBytes := by
  intro s l m n hl hfits hn hbytes
  have hlm : m.read 16 = some l := (hbytes 16 (by decide) (by omega)).trans hl
  have hscan : scanFrame m n = scanFrame s.cur.frm s.cur.frmLen := by
    rw [scanFrame_of_fits hlm hn, scanFrame_of_fits hl hfits, readFrame_congr hbytes]
  exact exec_decode_setCur (g := fun c => { c with frm := m, frmLen := n }) hscan fun f => s.cur.decoded_setFrame f m n

end Sys2Proof.Machine
end

section
/-! SUPPORT. NEW: what it writes and leaves, the wrap of SEQ, and the delivery of what NEW and ENCODE send (43_new.md R130 to
R133). -/

namespace Sys2Proof.Machine

/-! ### NEW -/

/-- Settles O35: the only writes are those of SEQ, PKT.ORIGIN, PKT.SEQID, PKT.CSUM, ACC and STATUS. -/
theorem newLeavesTheRest : Obligations.NewLeavesTheRest := by
  intro s t h
  have haround := exec_sameAround h
  obtain ⟨p, -, rfl⟩ := exec_new_next h
  exact ⟨rfl, rfl, rfl, rfl, rfl, fun _ => rfl, fun _ => rfl, haround⟩

/-- 40_checksum.md R101: storing the checksum makes the packet held valid, whatever its other fields are. -/
theorem Codec.storeChecksum_packet_valid (c : Codec) (p : List Byte) : ((c.storeChecksum p).packet p).Valid :=
  csum16_toNat c.origin c.dest c.seqid c.len p

/-- Settles O34: NEW stores the checksum after it wrote PKT.ORIGIN and PKT.SEQID, so the packet it leaves is valid; what it
leaves unchanged is O35's. -/
theorem newBuildsAnOutboundPacket : Obligations.NewBuildsAnOutboundPacket := by
  refine ⟨rfl, fun s p hp => ?_⟩
  have hexec := exec_new_of_payload hp
  obtain ⟨hdest, hlen, hfrmLen, -, -, hpay, hfrm, -⟩ := newLeavesTheRest s _ hexec
  have hvalid := ((s.cur.setOrigin originLocal).setSeqid (nextSeq s.seq)).storeChecksum_packet_valid p
  exact ⟨_, hexec, BitVec.toNat_add .., rfl, rfl, hvalid, rfl, hdest, hlen, hpay, hfrm, hfrmLen, hvalid⟩

/-- NEW leaves PKT.LEN and PAY, so it leaves the payload held (43_new.md R130). -/
theorem exec_new_keeps_payload {s t : State} {p : List Byte} (h : exec .new s = .next t) (hp : s.cur.PayloadIs p) :
    t.cur.PayloadIs p := by
  obtain ⟨_, -, rfl⟩ := exec_new_next h
  exact hp

/-! ### The wrap of SEQ -/

/-- NEW gives the packet the value after SEQ's, and can be given again (43_new.md R131). -/
theorem exec_new_allocates {s : State} {p : List Byte} {v : U32} (hp : s.cur.PayloadIs p) (hv : s.seq + 1 = v) :
    ∃ t, exec .new s = .next t ∧ t.seq = v ∧ t.cur.seqid = v ∧ t.cur.status = 0#2 ∧ t.cur.PayloadIs p := by
  have hexec := exec_new_of_payload hp
  exact ⟨_, hexec, hv, hv, rfl, exec_new_keeps_payload hexec hp⟩

/-- Settles O36: two NEW commands in a row, from 0xFFFFFFFF to 0 and from 0 to 1. -/
theorem seqWrapsToZero : Obligations.SeqWrapsToZero := by
  intro s p hp hs
  have hwrap : s.seq + 1 = 0#32 := by rw [hs]; decide
  obtain ⟨t, ht, htseq, htid, htstatus, htp⟩ := exec_new_allocates hp hwrap
  have hnext : t.seq + 1 = 1#32 := by rw [htseq]; decide
  obtain ⟨u, hu, huseq, huid, hustatus, -⟩ := exec_new_allocates htp hnext
  exact ⟨t, u, ht, htseq, htid, htstatus, hu, huseq, huid, hustatus⟩

/-! ### What NEW and ENCODE send -/

/-- Settles O41: NEW leaves a valid packet (O34), ENCODE leaves a whole frame of it (O21), and DECODE of a whole frame of a
valid packet delivers its fields, in whichever instance the frame stands. -/
theorem sentPacketIsDelivered : Obligations.SentPacketIsDelivered := by
  intro s r p hp
  obtain ⟨-, hnew⟩ := newBuildsAnOutboundPacket
  obtain ⟨t, ht, -, horigin, hseqid, -, -, hdest, hlen, -, -, -, hvalid⟩ := hnew s p hp
  obtain ⟨-, hencode⟩ := encodeMarshalsThePacket
  obtain ⟨u, hu, -, -, hframe, hfrmLen, -⟩ := hencode t p (exec_new_keeps_payload ht hp)
  have hwhole : Codec.holdsFrame { r.cur with frm := u.cur.frm, frmLen := u.cur.frmLen } (t.cur.packet p) :=
    holdsFrame_iff.2 ⟨hframe, hfrmLen.ge⟩
  obtain ⟨v, hv, hstatus, hvorigin, hvdest, hvseqid, -, hvlen, hpayload⟩ := decode_of_valid
    (s := { r with cur := { r.cur with frm := u.cur.frm, frmLen := u.cur.frmLen } }) hwhole hvalid
  exact ⟨t, u, ht, hu, v, hv, hstatus, hvorigin.trans horigin, hvdest.trans hdest, hvseqid.trans hseqid,
    hvlen.trans hlen, hpayload⟩

end Sys2Proof.Machine
end

section
/-! SUPPORT. How a command ends in an error and what it then leaves, and what an event and a command depend on
(60_exceptions.md R141, R142, R147, R149, R152, R153). -/

namespace Sys2Proof.Machine

/-! ### The step from its oldest event -/

theorem step_of_input {s : State} {e : Event} {es : List Event} (hin : s.input = e :: es) :
    step s = runEvent e (s.setInput es) := by
  rw [step, nextEvent, hin]

theorem runEvent_of_select {e : Event} {s s' : State} (h : s.select e.inst = some s') :
    runEvent e s = perform e.action s' := by
  rw [runEvent, h]

theorem runEvent_of_absent {e : Event} {s : State} (h : s.insts.length ≤ e.inst) :
    runEvent e s = .fault (.noSuchInstance e.inst) := by
  rw [runEvent, select_eq_none_iff.2 h]

theorem exists_select {s : State} {k : Nat} (h : k < s.insts.length) : ∃ s', s.select k = some s' :=
  Option.ne_none_iff_exists'.1 fun hnone => Nat.not_le.2 h (select_eq_none_iff.1 hnone)

/-- Settles O4: the instance exists, so it is addressed, and addressing it moves no value. -/
theorem stepRunsTheIssuedCommand : Obligations.StepRunsTheIssuedCommand := by
  intro s e es hin hlt
  obtain ⟨s', hsel⟩ := exists_select (s := s.setInput es) hlt
  obtain ⟨hinsts, hcur, -, -, hseq, hcap, hinput⟩ := select_eq_some hsel
  have hstep : step s = perform e.action s' := (step_of_input hin).trans (runEvent_of_select hsel)
  exact ⟨s', hinsts, hcur, length_before_of_select hsel, hseq, hcap, hinput, hstep,
    fun op hop => by rw [hstep, hop]; rfl⟩

/-- Settles O6: an empty input is the idle branch of `nextEvent`. -/
theorem idleStepChangesNothing : Obligations.IdleStepChangesNothing := by
  intro s hin
  rw [step, nextEvent, hin]

/-- Settles O7: taking the event off the input leaves the instances, and none has its number. -/
theorem eventForAbsentInstanceFaults : Obligations.EventForAbsentInstanceFaults :=
  fun s _ es hin habsent => (step_of_input hin).trans (runEvent_of_absent (s := s.setInput es) habsent)

/-! ### A command that ends in an error -/

/-- 60_exceptions.md R140 to R142, R147: DECODE alone ends in an error, by one of two causes, and then writes STATUS, and for a
wrong sum the hidden ACC (log 8). -/
theorem exec_error {i : Instr} {s t : State} (h : exec i s = .next t) (herr : t.cur.status ≠ 0#2) :
    i = .decode ∧
      ((s.cur.tooShort ∧ t = s.setCur (s.cur.setStatus 1#2)) ∨
        ∃ p, s.cur.holdsFrame p ∧ ¬ p.Valid ∧ t = s.setCur ((s.cur.setAcc p.sum).setStatus 2#2)) := by
  obtain ⟨-, -, hok⟩ := exec_status h
  cases i with
  | csum => exact absurd (hok (.inl rfl)) herr
  | encode => exact absurd (hok (.inr (.inl rfl))) herr
  | new => exact absurd (hok (.inr (.inr rfl))) herr
  | decode =>
    rcases exec_decode_next h with hshort | ⟨p, hf, hc, rfl⟩ | ⟨p, -, -, rfl⟩
    · exact ⟨rfl, .inl hshort⟩
    · exact ⟨rfl, .inr ⟨p, hf, fun hv => hc (valid_iff_trunc16.1 hv), rfl⟩⟩
    · exact absurd rfl herr

/-- 60_exceptions.md R141. -/
theorem exec_incompleteFrame {i : Instr} {s t : State} (h : exec i s = .next t) (hst : t.cur.status = 1#2) :
    i = .decode ∧ s.cur.tooShort := by
  obtain ⟨hi, ⟨hshort, -⟩ | ⟨p, -, -, rfl⟩⟩ := exec_error h (by rw [hst]; decide)
  · exact ⟨hi, hshort⟩
  · exact absurd hst (show (2#2 : BitVec 2) ≠ 1#2 by decide)

/-- 60_exceptions.md R142. -/
theorem exec_invalidChecksum {i : Instr} {s t : State} (h : exec i s = .next t) (hst : t.cur.status = 2#2) :
    i = .decode ∧ ∃ p, s.cur.holdsFrame p ∧ ¬ p.Valid := by
  obtain ⟨hi, ⟨-, rfl⟩ | ⟨p, hf, hv, -⟩⟩ := exec_error h (by rw [hst]; decide)
  · exact absurd hst (show (1#2 : BitVec 2) ≠ 2#2 by decide)
  · exact ⟨hi, p, hf, hv⟩

theorem exec_decode_of_tooShort {s : State} (h : s.cur.tooShort) :
    exec .decode s = .next (s.setCur (s.cur.setStatus 1#2)) := by
  rw [exec_decode_eq, scanFrame_eq_short_iff.2 h]; rfl

theorem exec_decode_of_invalid {s : State} {p : Packet} (hf : s.cur.holdsFrame p) (hv : ¬ p.Valid) :
    exec .decode s = .next (s.setCur ((s.cur.setAcc p.sum).setStatus 2#2)) := by
  rw [exec_decode_of_frame hf, Codec.decoded_of_sum_ne fun hc => hv (valid_iff_trunc16.2 hc)]

/-- The header test comes first, so the length byte counts only in a whole header (42_decode.md R120 steps 1 to 3). -/
theorem tooShort_iff_header_or_body {c : Codec} :
    c.tooShort ↔ c.frmLen < 17 ∨ 17 ≤ c.frmLen ∧ ∃ l, c.frm.read 16 = some l ∧ c.frmLen < 17 + l.toNat := by
  rw [tooShort_iff]
  rcases Nat.lt_or_ge c.frmLen 17 with h | h
  · simp only [h, true_or]
  · simp only [Nat.not_lt.2 h, h, false_or, true_and]

/-- Settles O25: both directions, the length byte counted only behind a whole header. -/
theorem incompleteFrameExactlyWhenTooShort : Obligations.IncompleteFrameExactlyWhenTooShort := by
  refine ⟨fun i s t h hst => ?_, fun s hshort => ?_⟩
  · obtain ⟨hi, hshort⟩ := exec_incompleteFrame h hst
    exact ⟨hi, tooShort_iff_header_or_body.1 hshort⟩
  · exact ⟨_, exec_decode_of_tooShort (tooShort_iff_header_or_body.2 hshort)⟩

/-- Settles O26: both directions, the whole frame put in the words of the statement. -/
theorem invalidChecksumExactlyWhenSumsDiffer : Obligations.InvalidChecksumExactlyWhenSumsDiffer := by
  refine ⟨fun i s t h hst => ?_, fun s p hf hl hv => ?_⟩
  · obtain ⟨hi, p, hwhole, hv⟩ := exec_invalidChecksum h hst
    obtain ⟨hf, hl⟩ := holdsFrame_iff.1 hwhole
    exact ⟨hi, p, hf, hl, hv⟩
  · exact ⟨_, _, exec_decode_of_invalid (holdsFrame_iff.2 ⟨hf, hl⟩) hv⟩

/-- Settles O45: of the two errors, one writes STATUS and the other STATUS and ACC. -/
theorem anErrorReplacesOnlyStatus : Obligations.AnErrorReplacesOnlyStatus := by
  intro i s t h herr
  obtain ⟨-, ⟨-, rfl⟩ | ⟨p, -, -, rfl⟩⟩ := exec_error h herr
  · rfl
  · rfl

/-! ### What a command depends on -/

theorem exec_eq_next_iff {i : Instr} {s t : State} :
    exec i s = .next t ↔
      ∃ c, s.cur.commanded i (nextSeq s.seq) = some c ∧ t = (s.setSeq (seqAfter i s.seq)).setCur c := by
  rw [exec_eq]
  cases s.cur.commanded i (nextSeq s.seq) with
  | none => simp [State.answerTo]
  | some c => simp [State.answerTo, eq_comm]

/-- 43_new.md R131: SEQ reaches an instance only by the id that NEW gives. -/
theorem Codec.commanded_nextSeq_congr {i : Instr} {q q' : U32} (h : i = .new → q' = q) (c : Codec) :
    c.commanded i (nextSeq q') = c.commanded i (nextSeq q) := by
  by_cases hi : i = .new
  · rw [h hi]
  · exact Codec.commanded_newId hi c _ _

/-- Settles O53: the instance a command leaves is a function of the one it found and, for NEW, of the new id. -/
theorem commandsDependOnTheirInstanceAlone : Obligations.CommandsDependOnTheirInstanceAlone := by
  intro i s s' t hcur hseq h
  obtain ⟨c, hc, rfl⟩ := exec_eq_next_iff.1 h
  have hc' : s'.cur.commanded i (nextSeq s'.seq) = some c := by
    rw [hcur, Codec.commanded_nextSeq_congr hseq, hc]
  exact ⟨_, exec_eq_next_iff.2 ⟨c, hc', rfl⟩, rfl⟩

end Sys2Proof.Machine
end
